-- ==== Sys2Proof/Word.lean ====
section
/-! DEFINITION. The two word types of the core: bytes and 16-bit words (00_scope.md rules R5, R8). -/

namespace Sys2Proof

/-- `u8`: register contents and memory bytes; arithmetic wraps modulo 2^8 (00_scope.md rule R8). -/
abbrev Byte := BitVec 8

/-- `u16`: SP, PC, the register pairs and every address; arithmetic wraps modulo 2^16
(00_scope.md rule R8). -/
abbrev Word := BitVec 16

end Sys2Proof
end

