-- ==== Sys2Proof/Machine/Bits.lean ====
section
/-! DEFINITION. Bit-field, extension and byte-order helpers (00_scope.md rules R8, R9) and the fields
of an opcode byte (30_encoding.md rule R85). -/

namespace Sys2Proof

/-- `w[7:0]` (00_scope.md rule R9). -/
def lo8 (w : Word) : Byte := w.extractLsb' 0 8

/-- `w[15:8]` (00_scope.md rule R9). -/
def hi8 (w : Word) : Byte := w.extractLsb' 8 8

/-- `{hi, lo}`: `hi` in bits 15:8 (00_scope.md rule R8). -/
def mkWord (hi lo : Byte) : Word := hi ++ lo

/-- `zext_16` (00_scope.md rule R9). -/
def zext16 (v : Byte) : Word := v.setWidth 16

/-- `sext_16`: bit 7 copied into bits 15:8 (00_scope.md rule R9). -/
def sext16 (v : Byte) : Word := v.signExtend 16

/-- `v[3:0]` as a number, for the half-carries (40_alu8.md rule R120). -/
def lowNibble (v : Byte) : Nat := v.toNat % 16

/-- `w[11:0]` as a number, for the half-carry of ADD HL,r16 (41_alu16.md rule R150). -/
def low12 (w : Word) : Nat := w.toNat % 4096

/-- Field `x`, bits 7:6 (30_encoding.md rule R85). -/
def fieldX (op : Byte) : BitVec 2 := op.extractLsb' 6 2

/-- Field `y`, bits 5:3 (30_encoding.md rule R85). -/
def fieldY (op : Byte) : BitVec 3 := op.extractLsb' 3 3

/-- Field `z`, bits 2:0 (30_encoding.md rule R85). -/
def fieldZ (op : Byte) : BitVec 3 := op.extractLsb' 0 3

/-- Field `p`, bits 5:4 (30_encoding.md rule R85). -/
def fieldP (op : Byte) : BitVec 2 := op.extractLsb' 4 2

/-- Field `q`, bit 3 (30_encoding.md rule R85). -/
def fieldQ (op : Byte) : Bool := op.getLsbD 3

/-- Field `cc`, bits 4:3 (30_encoding.md rule R85). -/
def fieldCc (op : Byte) : BitVec 2 := op.extractLsb' 3 2

end Sys2Proof
end

