-- ==== Sys2Proof/Config.lean ====
section
/-! DEFINITION. What is fixed for the machine: the implementation parameters of 00_scope.md rule R5
that the definitions need. The spec leaves no result of any instruction open
(93_implementation_defined.md part 1), so there is no free value here. -/

namespace Sys2Proof

/-- Number of byte addresses of the one address space (20_memory.md rule R50). -/
def Config.addressCount : Nat := 65536

/-- What an address that the memory list does not name reads as. DESIGN CHOICE (log entry 1), unsafe
for a claim about `State.reset`'s own memory: the launch content MEM0 is a parameter of the spec
(70_reset_and_hazards.md rule R282). -/
def Config.unlistedByte : Byte := 0x00#8

/-- The base of the I/O page (20_memory.md rule R64). -/
def Config.ioPageBase : Word := 0xFF00#16

/-- Where the first instruction after reset is fetched (70_reset_and_hazards.md rule R281). -/
def Config.resetPc : Word := 0x0000#16

end Sys2Proof
end

