-- ==== Sys2Proof/Syntax.lean ====
section
/-! DEFINITION. The instruction records: operand names (30_encoding.md rules R88 to R92) and one
constructor per row of spec/opcode_table.json. Immediates are already in the record (rule R108). -/

namespace Sys2Proof

/-- The `r8` table, in index order 0 to 7; index 6 is the memory byte at HL (30_encoding.md rule R88). -/
inductive R8 where
  | b | c | d | e | h | l
  /-- `[HL]`: the byte at address HL. -/
  | hlInd
  | a
  deriving DecidableEq, Repr

/-- The `r16` table (30_encoding.md rule R89). -/
inductive R16 where
  | bc | de | hl | sp
  deriving DecidableEq, Repr

/-- The `r16stk` table of PUSH and POP (30_encoding.md rule R90). -/
inductive R16Stk where
  | bc | de | hl | af
  deriving DecidableEq, Repr

/-- The `r16mem` table of the indirect accumulator loads (30_encoding.md rule R91). -/
inductive R16Mem where
  | bc | de
  /-- `[HL+]`: HL is incremented after the access. -/
  | hlInc
  /-- `[HL-]`: HL is decremented after the access. -/
  | hlDec
  deriving DecidableEq, Repr

/-- The conditions of JP, JR, CALL and RET (43_control_flow.md rule R180). -/
inductive Cond where
  | nz | z | nc | c
  deriving DecidableEq, Repr

/-- An instruction record, one constructor per row of spec/opcode_table.json, in the table's order.
`n8`, `e8`, `a8` are the byte after the opcode (unsigned data, signed offset, I/O-page offset), `n16`
and `a16` the two bytes after it (30_encoding.md rule R87). -/
inductive Instr where
  | nop
  | ldR16N16 (r : R16) (n16 : Word)
  | ldR16MemA (m : R16Mem)
  | incR16 (r : R16)
  | incR8 (r : R8)
  | decR8 (r : R8)
  | ldR8N8 (r : R8) (n8 : Byte)
  | rlca
  | rrca
  | rla
  | rra
  | daa
  | cpl
  | scf
  | ccf
  | ldA16Sp (a16 : Word)
  | addHlR16 (r : R16)
  | ldAR16Mem (m : R16Mem)
  | decR16 (r : R16)
  | stop
  | jrE8 (e8 : Byte)
  | jrCcE8 (cc : Cond) (e8 : Byte)
  | halt
  | ldR8R8 (dst src : R8)
  | addAR8 (r : R8)
  | adcAR8 (r : R8)
  | subAR8 (r : R8)
  | sbcAR8 (r : R8)
  | andAR8 (r : R8)
  | xorAR8 (r : R8)
  | orAR8 (r : R8)
  | cpAR8 (r : R8)
  | retCc (cc : Cond)
  | popR16Stk (r : R16Stk)
  | jpCcA16 (cc : Cond) (a16 : Word)
  | jpA16 (a16 : Word)
  | callCcA16 (cc : Cond) (a16 : Word)
  | pushR16Stk (r : R16Stk)
  | addAN8 (n8 : Byte)
  | adcAN8 (n8 : Byte)
  | subAN8 (n8 : Byte)
  | sbcAN8 (n8 : Byte)
  | andAN8 (n8 : Byte)
  | xorAN8 (n8 : Byte)
  | orAN8 (n8 : Byte)
  | cpAN8 (n8 : Byte)
  /-- RST to the address `y * 8`; the record holds the field `y`. -/
  | rst (y : BitVec 3)
  | ret
  | reti
  | jpHl
  | ldSpHl
  /-- The PREFIX row: the byte 0xCB and the second opcode byte (46_misc.md rule R245). The decoder
  answers with the CB-space entry itself, never with this record (log entry 5). -/
  | cbPrefix (op2 : Byte)
  | callA16 (a16 : Word)
  | ldhA8A (a8 : Byte)
  | ldhAA8 (a8 : Byte)
  | ldhCA
  | ldhAC
  | addSpE8 (e8 : Byte)
  | ldHlSpE8 (e8 : Byte)
  | ldA16A (a16 : Word)
  | ldAA16 (a16 : Word)
  | di
  | ei
  | illegalD3
  | illegalDB
  | illegalDD
  | illegalE3
  | illegalE4
  | illegalEB
  | illegalEC
  | illegalED
  | illegalF4
  | illegalFC
  | illegalFD
  | rlcR8 (r : R8)
  | rrcR8 (r : R8)
  | rlR8 (r : R8)
  | rrR8 (r : R8)
  | slaR8 (r : R8)
  | sraR8 (r : R8)
  | swapR8 (r : R8)
  | srlR8 (r : R8)
  | bitBR8 (b : BitVec 3) (r : R8)
  | resBR8 (b : BitVec 3) (r : R8)
  | setBR8 (b : BitVec 3) (r : R8)
  deriving DecidableEq, Repr

end Sys2Proof
end

