-- ==== Sys2Proof/Machine/State.lean ====
section
/-! DEFINITION. The machine's state (10_state.md rules R20 to R37 and the memory behind the reference
bus, 20_memory.md rule R50), its reset value, and the reasons a step can stop. Plain data. -/

namespace Sys2Proof.Machine

/-- The memory behind the reference bus: address and byte pairs, addresses strictly rising, no entry
equal to what an unlisted address reads as (`Memory.wf` in Ops.lean). -/
abbrev Memory := List Host.Cell

/-- The fault status other than `none` (10_state.md rule R37, 60_exceptions.md rule R250). The two names
are the fault codes. -/
inductive FaultStatus where
  /-- IllegalOpcode(byte, addr): the byte fetched as an opcode and the address it came from (rule R251). -/
  | illegalOpcode (byte : Byte) (addr : Word)
  /-- IllegalInstruction(record): the ill-formed record handed to the `execute` port (rule R252). -/
  | illegalInstruction (record : Instr)
  deriving DecidableEq, Repr

/-- Everything the spec gives the machine. AF, BC, DE, HL are views (rule R22) and the flags are bits of
F (rule R29): both are accessors, not fields. -/
structure State where
  /-- The accumulator (rule R21). -/
  a : Byte
  /-- The flag register; only bits 7:4 are storage (rule R25), see `State.getF`, `State.setF`. -/
  f : Byte
  /-- General register B (rule R21). -/
  b : Byte
  /-- General register C, also the LDH offset (rule R21). -/
  c : Byte
  /-- General register D (rule R21). -/
  d : Byte
  /-- General register E (rule R21). -/
  e : Byte
  /-- General register H, high half of HL (rules R21, R22). -/
  h : Byte
  /-- General register L, low half of HL (rules R21, R22). -/
  l : Byte
  /-- The stack pointer (rule R24). -/
  sp : Word
  /-- The program counter (rule R26). -/
  pc : Word
  /-- IME, the interrupt-master-enable flag (rule R34). -/
  ime : Bool
  /-- Set by HALT (rule R35). -/
  halted : Bool
  /-- Set by STOP (rule R36). -/
  lowPower : Bool
  /-- The sticky fault status (rule R37). -/
  fault : Option FaultStatus
  /-- The memory behind the bus (20_memory.md rule R50). -/
  mem : Memory
  deriving DecidableEq, Repr

/-- Why a step ends in the spec's outcome `Fault(reason)` (00_scope.md rule R7). The outcome is the
spec's own; each reason also carries the state the fault leaves, which rules R251, R252 and R259 fix,
so that nothing of it is lost (log entry 4). -/
inductive Fault where
  /-- Raised by `exec` of an illegal tag, so by `step` on one of the eleven bytes, and again by every
  later step and execute of the faulted core (60_exceptions.md rules R251, R259). Safe: the spec's own
  terminal fault. -/
  | illegalOpcode (byte : Byte) (addr : Word) (after : State)
  /-- Raised by the `execute` port on an ill-formed record (and by `exec` of LD [HL],[HL], a record no
  byte sequence decodes to), and again by every later step and execute (60_exceptions.md rules R252,
  R259). Safe: the spec's own terminal fault. -/
  | illegalInstruction (record : Instr) (after : State)
  deriving DecidableEq, Repr

/-- Why a step is refused. -/
inductive Refusal where
  /-- An arm of `exec` that has no meaning yet. Raised by no arm of this model. Safe: the machine
  stops. -/
  | notModelled (mnemonic : String)
  deriving DecidableEq, Repr

/-- The state right after reset (10_state.md rule R40, 70_reset_and_hazards.md rules R280, R281). Memory
is not the core's and lists nothing here (log entry 1). -/
def State.reset : State where
  a := 0x00#8
  f := 0x00#8
  b := 0x00#8
  c := 0x00#8
  d := 0x00#8
  e := 0x00#8
  h := 0x00#8
  l := 0x00#8
  sp := 0x0000#16
  pc := Config.resetPc
  ime := false
  halted := false
  lowPower := false
  fault := none
  mem := []

end Sys2Proof.Machine
end

