-- ==== Sys2Proof/Machine/Ops.lean ====
section
/-! DEFINITION. The named operations over memory and registers, the stack primitives, raising a fault
and returning from an interrupt. -/

namespace Sys2Proof.Machine

/-! ### Memory cells -/

/-- The byte a memory list holds at an address. -/
def Memory.read : Memory → Nat → Byte
  | [], _ => Config.unlistedByte
  | (k, v) :: m, addr => if k = addr then v else Memory.read m addr

/-- The list without any entry for an address. -/
def Memory.erase : Memory → Nat → Memory
  | [], _ => []
  | (k, v) :: m, addr => if k = addr then Memory.erase m addr else (k, v) :: Memory.erase m addr

/-- The list with a new entry before the first higher address. -/
def Memory.insert : Memory → Nat → Byte → Memory
  | [], addr, v => [(addr, v)]
  | (k, x) :: m, addr, v => if addr < k then (addr, v) :: (k, x) :: m else (k, x) :: Memory.insert m addr v

/-- Store one byte, keeping the canonical form: the byte an unlisted address reads as is not listed. -/
def Memory.write (m : Memory) (addr : Nat) (v : Byte) : Memory :=
  if v = Config.unlistedByte then Memory.erase m addr else Memory.insert (Memory.erase m addr) addr v

/-- Every key is at least `lo`, keys rise strictly, are addresses of the space, and no entry holds the
byte an unlisted address reads as. -/
def Memory.wfFrom : Nat → Memory → Bool
  | _, [] => true
  | lo, (k, v) :: m =>
    decide (lo ≤ k) && decide (k < Config.addressCount) && decide (v ≠ Config.unlistedByte) &&
      Memory.wfFrom (k + 1) m

/-- The canonical form of memory. -/
def Memory.wf (m : Memory) : Bool := Memory.wfFrom 0 m

/-! ### The reference bus: the instance of the open parameter BUS behind `step` (log entry 2); the core on any
bus is in Platform.lean -/

/-- `MemRead(addr, 1)`: always succeeds (20_memory.md rule R51). -/
def State.readByte (s : State) (addr : Word) : Byte := Memory.read s.mem addr.toNat

/-- `MemWrite(addr, 1, v)`: always succeeds (20_memory.md rule R52). -/
def State.writeByte (s : State) (addr : Word) (v : Byte) : State :=
  { s with mem := Memory.write s.mem addr.toNat v }

/-- `MemRead(addr, 2)`: low byte at `addr`, high byte at `addr + 1` modulo 2^16 (20_memory.md rule R53). -/
def State.readWord (s : State) (addr : Word) : Word := mkWord (s.readByte (addr + 1)) (s.readByte addr)

/-- `MemWrite(addr, 2, w)`: low byte at `addr`, high byte at `addr + 1` modulo 2^16 (20_memory.md rule
R54). -/
def State.writeWord (s : State) (addr : Word) (w : Word) : State :=
  (s.writeByte addr (lo8 w)).writeByte (addr + 1) (hi8 w)

/-! ### Registers -/

/-- Read F: bits 3:0 read as 0 (10_state.md rule R25). -/
def State.getF (s : State) : Byte := s.f &&& 0xF0#8

/-- Write F: "every write to F, whatever its source, stores `value & 0xF0`" (10_state.md rule R25). -/
def State.setF (s : State) (v : Byte) : State := { s with f := v &&& 0xF0#8 }

/-- The pair AF = {A, F} (10_state.md rule R22). -/
def State.af (s : State) : Word := mkWord s.a s.getF

/-- The pair BC = {B, C} (10_state.md rule R22). -/
def State.bc (s : State) : Word := mkWord s.b s.c

/-- The pair DE = {D, E} (10_state.md rule R22). -/
def State.de (s : State) : Word := mkWord s.d s.e

/-- The pair HL = {H, L} (10_state.md rule R22). -/
def State.hl (s : State) : Word := mkWord s.h s.l

/-- `AF <- w`; F takes `lo8(w)` through its mask (10_state.md rules R22, R25). -/
def State.setAf (s : State) (w : Word) : State := State.setF { s with a := hi8 w } (lo8 w)

/-- `BC <- w` (10_state.md rule R22). -/
def State.setBc (s : State) (w : Word) : State := { s with b := hi8 w, c := lo8 w }

/-- `DE <- w` (10_state.md rule R22). -/
def State.setDe (s : State) (w : Word) : State := { s with d := hi8 w, e := lo8 w }

/-- `HL <- w` (10_state.md rule R22). -/
def State.setHl (s : State) (w : Word) : State := { s with h := hi8 w, l := lo8 w }

/-- `A <- v`. -/
def State.setA (s : State) (v : Byte) : State := { s with a := v }

/-- `SP <- w`. -/
def State.setSp (s : State) (w : Word) : State := { s with sp := w }

/-- `pc <- target` (10_state.md rule R26). -/
def State.setPc (s : State) (target : Word) : State := { s with pc := target }

/-- The PC advance of a fetch of `n` bytes, modulo 2^16 (30_encoding.md rules R81, R82). -/
def State.advancePc (s : State) (n : Nat) : State := s.setPc (s.pc + BitVec.ofNat 16 n)

/-- Write IME (10_state.md rule R34). -/
def State.setIme (s : State) (v : Bool) : State := { s with ime := v }

/-- Write `halted` (10_state.md rule R35). -/
def State.setHalted (s : State) (v : Bool) : State := { s with halted := v }

/-- Write `low_power` (10_state.md rule R36). -/
def State.setLowPower (s : State) (v : Bool) : State := { s with lowPower := v }

/-! ### The stack primitives -/

/-- `Push16(v)`: decrement SP by two, then write the word at the new SP (44_stack.md rule R200). -/
def State.push16 (s : State) (v : Word) : State := (s.setSp (s.sp - 2)).writeWord (s.sp - 2) v

/-- The value `Pop16()` returns: the word at SP (44_stack.md rule R201). -/
def State.top16 (s : State) : Word := s.readWord s.sp

/-- The state `Pop16()` leaves: SP up by two, memory as it was (44_stack.md rule R201). -/
def State.drop16 (s : State) : State := s.setSp (s.sp + 2)

/-! ### Faults, hold, and return from interrupt -/

/-- The report of a fault status by the state that holds it (60_exceptions.md rules R250, R259). -/
def FaultStatus.report (r : FaultStatus) (s : State) : Fault :=
  match r with
  | .illegalOpcode byte addr => .illegalOpcode byte addr s
  | .illegalInstruction record => .illegalInstruction record s

/-- Raise a fault: the one exception entry of the block. There is no handler: nothing is pushed, no
register changes, the status is recorded and the step ends with outcome `Fault`
(60_exceptions.md rules R251, R252, R258). -/
def raise (r : FaultStatus) (s : State) : Host.Outcome State Fault Refusal :=
  .fault (r.report { s with fault := some r })

/-- `raise IllegalOpcode(byte, addr)`, with PC already past the byte, so `addr = PC - 1`
(46_misc.md rule R246, 60_exceptions.md rule R251). -/
def raiseIllegalOpcode (byte : Byte) (s : State) : Host.Outcome State Fault Refusal :=
  raise (.illegalOpcode byte (s.pc - 1)) s

/-- `raise IllegalInstruction(record)` (60_exceptions.md rule R252). -/
def raiseIllegalInstruction (record : Instr) (s : State) : Host.Outcome State Fault Refusal :=
  raise (.illegalInstruction record) s

/-- Return: `pc <- Pop16()` (43_control_flow.md rule R188). -/
def State.popPc (s : State) : State := s.drop16.setPc s.top16

/-- Return from interrupt: `pc <- Pop16(); IME <- 1`, restoring nothing else
(43_control_flow.md rule R190, 60_exceptions.md rule R260). -/
def State.returnFromInterrupt (s : State) : State := s.popPc.setIme true

/-- The core is held: halted or stopped (60_exceptions.md rule R264). -/
def State.held (s : State) : Bool := s.halted || s.lowPower

end Sys2Proof.Machine
end

