-- ==== Sys2Proof/Machine/Flags.lean ====
section
/-! DEFINITION. The flag accessors and every computation of a result with its flags. -/

namespace Sys2Proof.Machine

/-! ### Flag accessors (10_state.md rule R29) -/

/-- F.Z, bit 7. -/
def State.flagZ (s : State) : Bool := s.f.getLsbD 7

/-- F.N, bit 6. -/
def State.flagN (s : State) : Bool := s.f.getLsbD 6

/-- F.H, bit 5. -/
def State.flagH (s : State) : Bool := s.f.getLsbD 5

/-- F.C, bit 4. -/
def State.flagC (s : State) : Bool := s.f.getLsbD 4

/-- The four flags (10_state.md rule R29). -/
inductive Flag where
  | z | n | h | c
  deriving DecidableEq, Repr

/-- The flag read accessor (10_state.md rule R29). -/
def State.flag (s : State) : Flag → Bool
  | .z => s.flagZ
  | .n => s.flagN
  | .h => s.flagH
  | .c => s.flagC

/-- The byte of F that holds the four flags. -/
def packFlags (z n h c : Bool) : Byte :=
  BitVec.ofBool z ++ BitVec.ofBool n ++ BitVec.ofBool h ++ BitVec.ofBool c ++ 0b0000#4

/-- Write all four flags; a flag "not written" is given its old value (10_state.md rule R29). -/
def State.setFlags (s : State) (z n h c : Bool) : State := s.setF (packFlags z n h c)

/-- The flag write accessor: that one bit, the other three flags as they were and the low nibble zero
(10_state.md rule R29). -/
def State.putFlag (s : State) (fl : Flag) (v : Bool) : State :=
  match fl with
  | .z => s.setFlags v s.flagN s.flagH s.flagC
  | .n => s.setFlags s.flagZ v s.flagH s.flagC
  | .h => s.setFlags s.flagZ s.flagN v s.flagC
  | .c => s.setFlags s.flagZ s.flagN s.flagH v

/-! ### 8-bit addition and subtraction -/

/-- An 8-bit result with its half-carry and carry. -/
structure Sum8 where
  /-- The result byte. -/
  r : Byte
  /-- Carry or borrow out of bit 3. -/
  h : Bool
  /-- Carry or borrow out of bit 7. -/
  c : Bool
  deriving DecidableEq, Repr

/-- `Add8(a, b, cin)`, in unbounded integers (40_alu8.md rule R120). -/
def add8 (x y : Byte) (cin : Bool) : Sum8 where
  r := BitVec.ofNat 8 (x.toNat + y.toNat + cin.toNat)
  h := decide (lowNibble x + lowNibble y + cin.toNat > 0xF)
  c := decide (x.toNat + y.toNat + cin.toNat > 0xFF)

/-- `Sub8(a, b, cin)`, in unbounded integers (40_alu8.md rule R121). -/
def sub8 (x y : Byte) (cin : Bool) : Sum8 where
  r := BitVec.ofInt 8 ((x.toNat : Int) - y.toNat - cin.toNat)
  h := decide (lowNibble x < lowNibble y + cin.toNat)
  c := decide (x.toNat < y.toNat + cin.toNat)

/-- `A <- r`, Z from the result, N given, H and C from the sum (40_alu8.md rules R123 to R130). -/
def State.putSum (s : State) (n : Bool) (o : Sum8) : State :=
  (s.setA o.r).setFlags (o.r == 0) n o.h o.c

/-- The flags of a subtraction with the result discarded (40_alu8.md rules R137, R138). -/
def State.putCompare (s : State) (o : Sum8) : State := s.setFlags (o.r == 0) true o.h o.c

/-- `A <- r`, Z from the result, N = 0, H fixed, C = 0 (40_alu8.md rules R131 to R136). -/
def State.putLogic (s : State) (h : Bool) (r : Byte) : State := (s.setA r).setFlags (r == 0) false h false

/-! ### Decimal adjust -/

/-- The DAA algorithm: the new A and the new C (40_alu8.md rule R141). -/
def daa (acc : Byte) (n h c : Bool) : Byte × Bool :=
  if n then
    let adj := (if h then 0x06#8 else 0x00#8) ||| (if c then 0x60#8 else 0x00#8)
    (acc - adj, c)
  else
    let low := h || decide (lowNibble acc > 0x9)
    let high := c || decide (acc.toNat > 0x99)
    let adj := (if low then 0x06#8 else 0x00#8) ||| (if high then 0x60#8 else 0x00#8)
    (acc + adj, high)

/-! ### 16-bit addition -/

/-- Carry out of bit 11 (41_alu16.md rule R150). -/
def half16 (x y : Word) : Bool := decide (low12 x + low12 y > 0x0FFF)

/-- Carry out of bit 15 (41_alu16.md rule R150). -/
def carry16 (x y : Word) : Bool := decide (x.toNat + y.toNat > 0xFFFF)

/-- SP plus the signed offset, modulo 2^16 (41_alu16.md rule R153, 45_load.md rule R223). -/
def spPlus (sp : Word) (e8 : Byte) : Word := sp + sext16 e8

/-- Z = 0, N = 0, H and C from the unsigned addition of the low byte of SP and the raw offset byte
(41_alu16.md rule R153, 45_load.md rule R223). -/
def State.setSpOffsetFlags (s : State) (sp : Word) (e8 : Byte) : State :=
  s.setFlags false false (decide (lowNibble (lo8 sp) + lowNibble e8 > 0xF))
    (decide ((lo8 sp).toNat + e8.toNat > 0xFF))

/-! ### Rotates and shifts -/

/-- The eight one-bit operations, in selector order (42_rotate_bit.md rule R160). -/
inductive RotOp where
  | rlc | rrc | rl | rr | sla | sra | swap | srl
  deriving DecidableEq, Repr

/-- `Rot_y(v, cin)`: the result (42_rotate_bit.md rule R160). -/
def rotResult (op : RotOp) (v : Byte) (cin : Bool) : Byte :=
  match op with
  | .rlc => v.extractLsb' 0 7 ++ v.extractLsb' 7 1
  | .rrc => v.extractLsb' 0 1 ++ v.extractLsb' 1 7
  | .rl => v.extractLsb' 0 7 ++ BitVec.ofBool cin
  | .rr => BitVec.ofBool cin ++ v.extractLsb' 1 7
  | .sla => v.extractLsb' 0 7 ++ 0b0#1
  | .sra => v.extractLsb' 7 1 ++ v.extractLsb' 1 7
  | .swap => v.extractLsb' 0 4 ++ v.extractLsb' 4 4
  | .srl => 0b0#1 ++ v.extractLsb' 1 7

/-- `Rot_y(v, cin)`: the carry-out, a bit of the operand before the operation
(42_rotate_bit.md rule R160). -/
def rotCarry (op : RotOp) (v : Byte) : Bool :=
  match op with
  | .rlc | .rl | .sla => v.getLsbD 7
  | .rrc | .rr | .sra | .srl => v.getLsbD 0
  | .swap => false

/-- `1 << b` (42_rotate_bit.md rules R174, R175). -/
def bitMask (b : BitVec 3) : Byte := 1#8 <<< b.toNat

end Sys2Proof.Machine
end

