-- ==== Sys2Proof/Machine/Operands.lean ====
section
/-! DEFINITION. Every operand form: the four operand tables read and written, the condition, the
I/O-page address and the RST target. -/

namespace Sys2Proof.Machine

/-- Read `r8[i]`; index 6 is `MemRead(HL, 1)` (30_encoding.md rule R88). -/
def readR8 (r : R8) (s : State) : Byte :=
  match r with
  | .b => s.b
  | .c => s.c
  | .d => s.d
  | .e => s.e
  | .h => s.h
  | .l => s.l
  | .hlInd => s.readByte s.hl
  | .a => s.a

/-- Write `r8[i] <- v`; index 6 is `MemWrite(HL, 1, v)` (30_encoding.md rule R88). -/
def writeR8 (r : R8) (v : Byte) (s : State) : State :=
  match r with
  | .b => { s with b := v }
  | .c => { s with c := v }
  | .d => { s with d := v }
  | .e => { s with e := v }
  | .h => { s with h := v }
  | .l => { s with l := v }
  | .hlInd => s.writeByte s.hl v
  | .a => { s with a := v }

/-- Read `r16[p]` (30_encoding.md rule R89). -/
def readR16 (r : R16) (s : State) : Word :=
  match r with
  | .bc => s.bc
  | .de => s.de
  | .hl => s.hl
  | .sp => s.sp

/-- Write `r16[p] <- w` (30_encoding.md rule R89). -/
def writeR16 (r : R16) (w : Word) (s : State) : State :=
  match r with
  | .bc => s.setBc w
  | .de => s.setDe w
  | .hl => s.setHl w
  | .sp => s.setSp w

/-- Read `r16stk[p]` (30_encoding.md rule R90). -/
def readR16Stk (r : R16Stk) (s : State) : Word :=
  match r with
  | .bc => s.bc
  | .de => s.de
  | .hl => s.hl
  | .af => s.af

/-- Write `r16stk[p] <- w` (30_encoding.md rule R90). -/
def writeR16Stk (r : R16Stk) (w : Word) (s : State) : State :=
  match r with
  | .bc => s.setBc w
  | .de => s.setDe w
  | .hl => s.setHl w
  | .af => s.setAf w

/-- The address of `r16mem[p]`: BC, DE, or HL before its change (30_encoding.md rule R91). -/
def addrR16Mem (m : R16Mem) (s : State) : Word :=
  match m with
  | .bc => s.bc
  | .de => s.de
  | .hlInc => s.hl
  | .hlDec => s.hl

/-- The post-modification of `r16mem[p]`, modulo 2^16 (45_load.md rules R214, R215). -/
def postR16Mem (m : R16Mem) (s : State) : State :=
  match m with
  | .bc => s
  | .de => s
  | .hlInc => s.setHl (s.hl + 1)
  | .hlDec => s.setHl (s.hl - 1)

/-- `cond(cc)` (43_control_flow.md rule R180). -/
def cond (cc : Cond) (s : State) : Bool :=
  match cc with
  | .nz => !s.flagZ
  | .z => s.flagZ
  | .nc => !s.flagC
  | .c => s.flagC

/-- `0xFF00 + zext_16(offset)` (20_memory.md rule R64). -/
def ioAddr (offset : Byte) : Word := Config.ioPageBase + zext16 offset

/-- The RST target `y * 8` (30_encoding.md rule R92, 43_control_flow.md rule R191). -/
def rstTarget (y : BitVec 3) : Word := y.setWidth 16 * 8

end Sys2Proof.Machine
end

