-- ==== Sys2Proof/Machine/Alu16.lean ====
section
/-! DEFINITION. The 16-bit arithmetic family (41_alu16.md). -/

namespace Sys2Proof.Machine

/-- ADD HL,r16: Z kept, N = 0, H out of bit 11, C out of bit 15; both operands are read before HL is
written (41_alu16.md rule R150). -/
def execAddHlR16 (r : R16) (s : State) : Host.Outcome State Fault Refusal :=
  let y := readR16 r s
  .next ((s.setHl (s.hl + y)).setFlags s.flagZ false (half16 s.hl y) (carry16 s.hl y))

/-- INC r16, no flags (41_alu16.md rule R151). -/
def execIncR16 (r : R16) (s : State) : Host.Outcome State Fault Refusal :=
  .next (writeR16 r (readR16 r s + 1) s)

/-- DEC r16, no flags (41_alu16.md rule R152). -/
def execDecR16 (r : R16) (s : State) : Host.Outcome State Fault Refusal :=
  .next (writeR16 r (readR16 r s - 1) s)

/-- ADD SP,e8 (41_alu16.md rule R153). -/
def execAddSpE8 (e8 : Byte) (s : State) : Host.Outcome State Fault Refusal :=
  .next ((s.setSp (spPlus s.sp e8)).setSpOffsetFlags s.sp e8)

end Sys2Proof.Machine
end

