-- ==== Sys2Proof/Machine/Alu8.lean ====
section
/-! DEFINITION. The 8-bit arithmetic and logic family (40_alu8.md). -/

namespace Sys2Proof.Machine

/-- ADD A,r8 (40_alu8.md rule R123). -/
def execAddAR8 (r : R8) (s : State) : Host.Outcome State Fault Refusal :=
  .next (s.putSum false (add8 s.a (readR8 r s) false))

/-- ADD A,n8 (40_alu8.md rule R124). -/
def execAddAN8 (n8 : Byte) (s : State) : Host.Outcome State Fault Refusal :=
  .next (s.putSum false (add8 s.a n8 false))

/-- ADC A,r8 (40_alu8.md rule R125). -/
def execAdcAR8 (r : R8) (s : State) : Host.Outcome State Fault Refusal :=
  .next (s.putSum false (add8 s.a (readR8 r s) s.flagC))

/-- ADC A,n8 (40_alu8.md rule R126). -/
def execAdcAN8 (n8 : Byte) (s : State) : Host.Outcome State Fault Refusal :=
  .next (s.putSum false (add8 s.a n8 s.flagC))

/-- SUB A,r8 (40_alu8.md rule R127). -/
def execSubAR8 (r : R8) (s : State) : Host.Outcome State Fault Refusal :=
  .next (s.putSum true (sub8 s.a (readR8 r s) false))

/-- SUB A,n8 (40_alu8.md rule R128). -/
def execSubAN8 (n8 : Byte) (s : State) : Host.Outcome State Fault Refusal :=
  .next (s.putSum true (sub8 s.a n8 false))

/-- SBC A,r8 (40_alu8.md rule R129). -/
def execSbcAR8 (r : R8) (s : State) : Host.Outcome State Fault Refusal :=
  .next (s.putSum true (sub8 s.a (readR8 r s) s.flagC))

/-- SBC A,n8 (40_alu8.md rule R130). -/
def execSbcAN8 (n8 : Byte) (s : State) : Host.Outcome State Fault Refusal :=
  .next (s.putSum true (sub8 s.a n8 s.flagC))

/-- AND A,r8 (40_alu8.md rule R131). -/
def execAndAR8 (r : R8) (s : State) : Host.Outcome State Fault Refusal :=
  .next (s.putLogic true (s.a &&& (readR8 r s)))

/-- AND A,n8 (40_alu8.md rule R132). -/
def execAndAN8 (n8 : Byte) (s : State) : Host.Outcome State Fault Refusal :=
  .next (s.putLogic true (s.a &&& n8))

/-- XOR A,r8 (40_alu8.md rule R133). -/
def execXorAR8 (r : R8) (s : State) : Host.Outcome State Fault Refusal :=
  .next (s.putLogic false (s.a ^^^ (readR8 r s)))

/-- XOR A,n8 (40_alu8.md rule R134). -/
def execXorAN8 (n8 : Byte) (s : State) : Host.Outcome State Fault Refusal :=
  .next (s.putLogic false (s.a ^^^ n8))

/-- OR A,r8 (40_alu8.md rule R135). -/
def execOrAR8 (r : R8) (s : State) : Host.Outcome State Fault Refusal :=
  .next (s.putLogic false (s.a ||| (readR8 r s)))

/-- OR A,n8 (40_alu8.md rule R136). -/
def execOrAN8 (n8 : Byte) (s : State) : Host.Outcome State Fault Refusal :=
  .next (s.putLogic false (s.a ||| n8))

/-- CP A,r8 (40_alu8.md rule R137). -/
def execCpAR8 (r : R8) (s : State) : Host.Outcome State Fault Refusal :=
  .next (s.putCompare (sub8 s.a (readR8 r s) false))

/-- CP A,n8 (40_alu8.md rule R138). -/
def execCpAN8 (n8 : Byte) (s : State) : Host.Outcome State Fault Refusal :=
  .next (s.putCompare (sub8 s.a n8 false))

/-- INC r8: Z from the result, N = 0, H from the old low nibble, C kept (40_alu8.md rule R139). -/
def execIncR8 (r : R8) (s : State) : Host.Outcome State Fault Refusal :=
  let v := readR8 r s
  .next ((writeR8 r (v + 1) s).setFlags (v + 1 == 0) false (decide (lowNibble v = 0xF)) s.flagC)

/-- DEC r8: Z from the result, N = 1 (the spec's decision D7), H from the old low nibble, C kept
(40_alu8.md rule R140). -/
def execDecR8 (r : R8) (s : State) : Host.Outcome State Fault Refusal :=
  let v := readR8 r s
  .next ((writeR8 r (v - 1) s).setFlags (v - 1 == 0) true (decide (lowNibble v = 0x0)) s.flagC)

/-- DAA: Z from the result, N kept, H = 0 (40_alu8.md rule R141). -/
def execDaa (s : State) : Host.Outcome State Fault Refusal :=
  let o := daa s.a s.flagN s.flagH s.flagC
  .next ((s.setA o.1).setFlags (o.1 == 0) s.flagN false o.2)

/-- CPL: N = 1, H = 1, Z and C kept (40_alu8.md rule R142). -/
def execCpl (s : State) : Host.Outcome State Fault Refusal :=
  .next ((s.setA (~~~s.a)).setFlags s.flagZ true true s.flagC)

/-- SCF: C = 1, N = 0, H = 0, Z kept (40_alu8.md rule R143). -/
def execScf (s : State) : Host.Outcome State Fault Refusal :=
  .next (s.setFlags s.flagZ false false true)

/-- CCF: C inverted, N = 0, H = 0, Z kept (40_alu8.md rule R144). -/
def execCcf (s : State) : Host.Outcome State Fault Refusal :=
  .next (s.setFlags s.flagZ false false (!s.flagC))

end Sys2Proof.Machine
end

