-- ==== Sys2Proof/Machine/Control.lean ====
section
/-! DEFINITION. Control flow (43_control_flow.md). PC is already past the whole instruction. -/

namespace Sys2Proof.Machine

/-- The JR target: the already-advanced PC plus the signed offset, modulo 2^16
(43_control_flow.md rule R184). -/
def State.relative (s : State) (e8 : Byte) : Word := s.pc + sext16 e8

/-- `Push16(pc); pc <- t` (43_control_flow.md rules R186, R191). -/
def State.call (s : State) (t : Word) : State := (s.push16 s.pc).setPc t

/-- JP a16 (43_control_flow.md rule R181). -/
def execJpA16 (a16 : Word) (s : State) : Host.Outcome State Fault Refusal :=
  .next (s.setPc a16)

/-- JP cc,a16 (43_control_flow.md rule R182). -/
def execJpCcA16 (cc : Cond) (a16 : Word) (s : State) : Host.Outcome State Fault Refusal :=
  .next (if cond cc s then s.setPc a16 else s)

/-- JP HL (43_control_flow.md rule R183). -/
def execJpHl (s : State) : Host.Outcome State Fault Refusal :=
  .next (s.setPc s.hl)

/-- JR e8 (43_control_flow.md rule R184). -/
def execJrE8 (e8 : Byte) (s : State) : Host.Outcome State Fault Refusal :=
  .next (s.setPc (s.relative e8))

/-- JR cc,e8 (43_control_flow.md rule R185). -/
def execJrCcE8 (cc : Cond) (e8 : Byte) (s : State) : Host.Outcome State Fault Refusal :=
  .next (if cond cc s then s.setPc (s.relative e8) else s)

/-- CALL a16 (43_control_flow.md rule R186). -/
def execCallA16 (a16 : Word) (s : State) : Host.Outcome State Fault Refusal :=
  .next (s.call a16)

/-- CALL cc,a16 (43_control_flow.md rule R187). -/
def execCallCcA16 (cc : Cond) (a16 : Word) (s : State) : Host.Outcome State Fault Refusal :=
  .next (if cond cc s then s.call a16 else s)

/-- RET (43_control_flow.md rule R188). -/
def execRet (s : State) : Host.Outcome State Fault Refusal :=
  .next s.popPc

/-- RET cc (43_control_flow.md rule R189). -/
def execRetCc (cc : Cond) (s : State) : Host.Outcome State Fault Refusal :=
  .next (if cond cc s then s.popPc else s)

/-- RETI (43_control_flow.md rule R190). -/
def execReti (s : State) : Host.Outcome State Fault Refusal :=
  .next s.returnFromInterrupt

/-- RST t, `t = y * 8` (43_control_flow.md rule R191). -/
def execRst (y : BitVec 3) (s : State) : Host.Outcome State Fault Refusal :=
  .next (s.call (rstTarget y))

end Sys2Proof.Machine
end

