-- ==== Sys2Proof/Machine/Load.lean ====
section
/-! DEFINITION. Loads and stores (45_load.md). Every load reads its source, then writes its destination. -/

namespace Sys2Proof.Machine

/-- LD r8,r8 (45_load.md rule R211). LD [HL],[HL] does not exist: no byte sequence decodes to it, and the
load engine answers IllegalInstruction (60_exceptions.md rule R252). -/
def execLdR8R8 (dst src : R8) (s : State) : Host.Outcome State Fault Refusal :=
  if dst = .hlInd ∧ src = .hlInd then raiseIllegalInstruction (.ldR8R8 dst src) s
  else .next (writeR8 dst (readR8 src s) s)

/-- LD r8,n8 (45_load.md rule R212). -/
def execLdR8N8 (r : R8) (n8 : Byte) (s : State) : Host.Outcome State Fault Refusal :=
  .next (writeR8 r n8 s)

/-- LD r16,n16 (45_load.md rule R213). -/
def execLdR16N16 (r : R16) (n16 : Word) (s : State) : Host.Outcome State Fault Refusal :=
  .next (writeR16 r n16 s)

/-- LD [r16mem],A: the store uses the old HL (45_load.md rule R214). -/
def execLdR16MemA (m : R16Mem) (s : State) : Host.Outcome State Fault Refusal :=
  .next (postR16Mem m (s.writeByte (addrR16Mem m s) s.a))

/-- LD A,[r16mem]: the read uses the old HL (45_load.md rule R215). -/
def execLdAR16Mem (m : R16Mem) (s : State) : Host.Outcome State Fault Refusal :=
  .next (postR16Mem m (s.setA (s.readByte (addrR16Mem m s))))

/-- LD [a16],SP (45_load.md rule R216). -/
def execLdA16Sp (a16 : Word) (s : State) : Host.Outcome State Fault Refusal :=
  .next (s.writeWord a16 s.sp)

/-- LD [a16],A (45_load.md rule R217). -/
def execLdA16A (a16 : Word) (s : State) : Host.Outcome State Fault Refusal :=
  .next (s.writeByte a16 s.a)

/-- LD A,[a16] (45_load.md rule R218). -/
def execLdAA16 (a16 : Word) (s : State) : Host.Outcome State Fault Refusal :=
  .next (s.setA (s.readByte a16))

/-- LDH [a8],A (45_load.md rule R219). -/
def execLdhA8A (a8 : Byte) (s : State) : Host.Outcome State Fault Refusal :=
  .next (s.writeByte (ioAddr a8) s.a)

/-- LDH A,[a8] (45_load.md rule R220). -/
def execLdhAA8 (a8 : Byte) (s : State) : Host.Outcome State Fault Refusal :=
  .next (s.setA (s.readByte (ioAddr a8)))

/-- LDH [C],A (45_load.md rule R221). -/
def execLdhCA (s : State) : Host.Outcome State Fault Refusal :=
  .next (s.writeByte (ioAddr s.c) s.a)

/-- LDH A,[C] (45_load.md rule R222). -/
def execLdhAC (s : State) : Host.Outcome State Fault Refusal :=
  .next (s.setA (s.readByte (ioAddr s.c)))

/-- LD HL,SP+e8: the flags of ADD SP,e8; SP and memory are not changed (45_load.md rule R223). -/
def execLdHlSpE8 (e8 : Byte) (s : State) : Host.Outcome State Fault Refusal :=
  .next ((s.setHl (spPlus s.sp e8)).setSpOffsetFlags s.sp e8)

/-- LD SP,HL (45_load.md rule R224). -/
def execLdSpHl (s : State) : Host.Outcome State Fault Refusal :=
  .next (s.setSp s.hl)

end Sys2Proof.Machine
end

