-- ==== Sys2Proof/WellFormed.lean ====
section
/-! DEFINITION. When an instruction record is well-formed: some byte sequence decodes to it
(60_exceptions.md rule R271). Three checks; every other bound is in the types of Syntax.lean. -/

namespace Sys2Proof

/-- The byte of an illegal tag of the opcode table, `none` for every legal row (46_misc.md rule R246). -/
def Instr.illegalByte? : Instr → Option Byte
  | .illegalD3 => some 0xD3#8
  | .illegalDB => some 0xDB#8
  | .illegalDD => some 0xDD#8
  | .illegalE3 => some 0xE3#8
  | .illegalE4 => some 0xE4#8
  | .illegalEB => some 0xEB#8
  | .illegalEC => some 0xEC#8
  | .illegalED => some 0xED#8
  | .illegalF4 => some 0xF4#8
  | .illegalFC => some 0xFC#8
  | .illegalFD => some 0xFD#8
  | _ => none

/-- Check 1: the row is not one of the eleven illegal tags (30_encoding.md rule R101). -/
def Instr.legal (i : Instr) : Bool := i.illegalByte?.isNone

/-- Check 2: the record is not a bare PREFIX: "it is never seen alone" (46_misc.md rule R245). -/
def Instr.entire : Instr → Bool
  | .cbPrefix _ => false
  | _ => true

/-- Check 3: the record is not LD [HL],[HL], which does not exist: 0x76 is HALT (46_misc.md rule R242). -/
def Instr.loadable : Instr → Bool
  | .ldR8R8 .hlInd .hlInd => false
  | _ => true

/-- A record some byte sequence decodes to (60_exceptions.md rule R271). -/
def Instr.wellFormed (i : Instr) : Bool := i.legal && i.entire && i.loadable

end Sys2Proof
end

