-- ==== Sys2Proof/Decode.lean ====
section
/-! DEFINITION. The operand code tables, the opcode table, the decoder, and after it the encoder
(30_encoding.md). Decoding is "a pure function of PC and the bytes at PC, PC+1, PC+2" (rule R86). -/

namespace Sys2Proof

/-! ### The operand tables -/

/-- The `r8` table read (30_encoding.md rule R88). -/
def R8.ofCode (v : BitVec 3) : R8 :=
  match v.toNat with
  | 0 => .b
  | 1 => .c
  | 2 => .d
  | 3 => .e
  | 4 => .h
  | 5 => .l
  | 6 => .hlInd
  | _ => .a

/-- The `r8` table written (30_encoding.md rule R88). -/
def R8.code : R8 → BitVec 3
  | .b => 0b000#3
  | .c => 0b001#3
  | .d => 0b010#3
  | .e => 0b011#3
  | .h => 0b100#3
  | .l => 0b101#3
  | .hlInd => 0b110#3
  | .a => 0b111#3

/-- The `r16` table read (30_encoding.md rule R89). -/
def R16.ofCode (v : BitVec 2) : R16 :=
  match v.toNat with
  | 0 => .bc
  | 1 => .de
  | 2 => .hl
  | _ => .sp

/-- The `r16` table written (30_encoding.md rule R89). -/
def R16.code : R16 → BitVec 2
  | .bc => 0b00#2
  | .de => 0b01#2
  | .hl => 0b10#2
  | .sp => 0b11#2

/-- The `r16stk` table read (30_encoding.md rule R90). -/
def R16Stk.ofCode (v : BitVec 2) : R16Stk :=
  match v.toNat with
  | 0 => .bc
  | 1 => .de
  | 2 => .hl
  | _ => .af

/-- The `r16stk` table written (30_encoding.md rule R90). -/
def R16Stk.code : R16Stk → BitVec 2
  | .bc => 0b00#2
  | .de => 0b01#2
  | .hl => 0b10#2
  | .af => 0b11#2

/-- The `r16mem` table read (30_encoding.md rule R91). -/
def R16Mem.ofCode (v : BitVec 2) : R16Mem :=
  match v.toNat with
  | 0 => .bc
  | 1 => .de
  | 2 => .hlInc
  | _ => .hlDec

/-- The `r16mem` table written (30_encoding.md rule R91). -/
def R16Mem.code : R16Mem → BitVec 2
  | .bc => 0b00#2
  | .de => 0b01#2
  | .hlInc => 0b10#2
  | .hlDec => 0b11#2

/-- The condition table read (30_encoding.md rule R92). -/
def Cond.ofCode (v : BitVec 2) : Cond :=
  match v.toNat with
  | 0 => .nz
  | 1 => .z
  | 2 => .nc
  | _ => .c

/-- The condition table written (30_encoding.md rule R92). -/
def Cond.code : Cond → BitVec 2
  | .nz => 0b00#2
  | .z => 0b01#2
  | .nc => 0b10#2
  | .c => 0b11#2

/-! ### The opcode table -/

/-- A row of the opcode table: the record still waiting for its immediate, by format
(30_encoding.md rule R83). -/
inductive Row where
  /-- `OP`, 1 byte. -/
  | plain (i : Instr)
  /-- `OP_N8`, `OP_E8`, `OP_A8`, 2 bytes. -/
  | imm8 (k : Byte → Instr)
  /-- `OP_N16`, `OP_A16`, 3 bytes, low byte first. -/
  | imm16 (k : Word → Instr)
  /-- `CB_OP`, 2 bytes: the second byte selects in the CB-prefixed table. -/
  | prefixed

/-- Block `x = 00` (30_encoding.md rule R94). -/
def lookupBlock0 (op : Byte) : Row :=
  match (fieldZ op).toNat with
  | 0 =>
    match (fieldY op).toNat with
    | 0 => .plain .nop
    | 1 => .imm16 .ldA16Sp
    | 2 => .plain .stop
    | 3 => .imm8 .jrE8
    | _ => .imm8 (.jrCcE8 (.ofCode (fieldCc op)))
  | 1 => bif fieldQ op then .plain (.addHlR16 (.ofCode (fieldP op))) else .imm16 (.ldR16N16 (.ofCode (fieldP op)))
  | 2 => bif fieldQ op then .plain (.ldAR16Mem (.ofCode (fieldP op))) else .plain (.ldR16MemA (.ofCode (fieldP op)))
  | 3 => bif fieldQ op then .plain (.decR16 (.ofCode (fieldP op))) else .plain (.incR16 (.ofCode (fieldP op)))
  | 4 => .plain (.incR8 (.ofCode (fieldY op)))
  | 5 => .plain (.decR8 (.ofCode (fieldY op)))
  | 6 => .imm8 (.ldR8N8 (.ofCode (fieldY op)))
  | _ =>
    match (fieldY op).toNat with
    | 0 => .plain .rlca
    | 1 => .plain .rrca
    | 2 => .plain .rla
    | 3 => .plain .rra
    | 4 => .plain .daa
    | 5 => .plain .cpl
    | 6 => .plain .scf
    | _ => .plain .ccf

/-- Block `x = 01`: LD r8,r8, but `y = z = 110` is HALT (30_encoding.md rule R95). -/
def lookupBlock1 (op : Byte) : Row :=
  match R8.ofCode (fieldY op), R8.ofCode (fieldZ op) with
  | .hlInd, .hlInd => .plain .halt
  | dst, src => .plain (.ldR8R8 dst src)

/-- Block `x = 10`: the ALU operation `y` on A and `r8[z]` (30_encoding.md rules R92, R96). -/
def lookupBlock2 (op : Byte) : Row :=
  match (fieldY op).toNat with
  | 0 => .plain (.addAR8 (.ofCode (fieldZ op)))
  | 1 => .plain (.adcAR8 (.ofCode (fieldZ op)))
  | 2 => .plain (.subAR8 (.ofCode (fieldZ op)))
  | 3 => .plain (.sbcAR8 (.ofCode (fieldZ op)))
  | 4 => .plain (.andAR8 (.ofCode (fieldZ op)))
  | 5 => .plain (.xorAR8 (.ofCode (fieldZ op)))
  | 6 => .plain (.orAR8 (.ofCode (fieldZ op)))
  | _ => .plain (.cpAR8 (.ofCode (fieldZ op)))

/-- Block `x = 11` (30_encoding.md rule R97). -/
def lookupBlock3 (op : Byte) : Row :=
  match (fieldZ op).toNat, (fieldY op).toNat with
  | 0, 4 => .imm8 .ldhA8A
  | 0, 5 => .imm8 .addSpE8
  | 0, 6 => .imm8 .ldhAA8
  | 0, 7 => .imm8 .ldHlSpE8
  | 0, _ => .plain (.retCc (.ofCode (fieldCc op)))
  | 1, 1 => .plain .ret
  | 1, 3 => .plain .reti
  | 1, 5 => .plain .jpHl
  | 1, 7 => .plain .ldSpHl
  | 1, _ => .plain (.popR16Stk (.ofCode (fieldP op)))
  | 2, 4 => .plain .ldhCA
  | 2, 5 => .imm16 .ldA16A
  | 2, 6 => .plain .ldhAC
  | 2, 7 => .imm16 .ldAA16
  | 2, _ => .imm16 (.jpCcA16 (.ofCode (fieldCc op)))
  | 3, 0 => .imm16 .jpA16
  | 3, 1 => .prefixed
  | 3, 2 => .plain .illegalD3
  | 3, 3 => .plain .illegalDB
  | 3, 4 => .plain .illegalE3
  | 3, 5 => .plain .illegalEB
  | 3, 6 => .plain .di
  | 3, _ => .plain .ei
  | 4, 4 => .plain .illegalE4
  | 4, 5 => .plain .illegalEC
  | 4, 6 => .plain .illegalF4
  | 4, 7 => .plain .illegalFC
  | 4, _ => .imm16 (.callCcA16 (.ofCode (fieldCc op)))
  | 5, 1 => .imm16 .callA16
  | 5, 3 => .plain .illegalDD
  | 5, 5 => .plain .illegalED
  | 5, 7 => .plain .illegalFD
  | 5, _ => .plain (.pushR16Stk (.ofCode (fieldP op)))
  | 6, 0 => .imm8 .addAN8
  | 6, 1 => .imm8 .adcAN8
  | 6, 2 => .imm8 .subAN8
  | 6, 3 => .imm8 .sbcAN8
  | 6, 4 => .imm8 .andAN8
  | 6, 5 => .imm8 .xorAN8
  | 6, 6 => .imm8 .orAN8
  | 6, _ => .imm8 .cpAN8
  | _, _ => .plain (.rst (fieldY op))

/-- The unprefixed opcode table: "a fixed, total mapping from every possible byte value"
(30_encoding.md rule R93). The illegal bytes have their own tags. -/
def lookup (op : Byte) : Row :=
  match (fieldX op).toNat with
  | 0 => lookupBlock0 op
  | 1 => lookupBlock1 op
  | 2 => lookupBlock2 op
  | _ => lookupBlock3 op

/-- The CB-prefixed table by the second opcode byte; no entry is illegal
(30_encoding.md rules R105, R106, R107). -/
def cbLookup (op2 : Byte) : Instr :=
  let r := R8.ofCode (fieldZ op2)
  match (fieldX op2).toNat with
  | 0 =>
    match (fieldY op2).toNat with
    | 0 => .rlcR8 r
    | 1 => .rrcR8 r
    | 2 => .rlR8 r
    | 3 => .rrR8 r
    | 4 => .slaR8 r
    | 5 => .sraR8 r
    | 6 => .swapR8 r
    | _ => .srlR8 r
  | 1 => .bitBR8 (fieldY op2) r
  | 2 => .resBR8 (fieldY op2) r
  | _ => .setBR8 (fieldY op2) r

/-! ### The decoder -/

/-- The table row's record for the bytes at PC, PC+1, PC+2, and how many of them it takes
(30_encoding.md rules R84, R86, R87). Total: an illegal byte gives its tag and length 1. -/
def decodeRow (b0 b1 b2 : Byte) : Instr × Nat :=
  match lookup b0 with
  | .plain i => (i, 1)
  | .imm8 k => (k b1, 2)
  | .imm16 k => (k (mkWord b2 b1), 3)
  | .prefixed => (cbLookup b1, 2)

/-- Why a byte sequence yields no instruction. -/
inductive Reject where
  /-- No byte at all. -/
  | noByte
  /-- The opcode's format takes more bytes than the sequence has. -/
  | truncated (op : Byte)
  /-- One of the eleven illegal bytes, which "yield no instruction" (30_encoding.md rule R109). -/
  | illegalOpcode (op : Byte)
  deriving DecidableEq, Repr

/-- The decoder over any byte sequence: the instruction and the bytes after it
(30_encoding.md rules R86, R109). -/
def decode : List Byte → Except Reject (Instr × List Byte)
  | [] => .error .noByte
  | b0 :: rest =>
    let d := decodeRow b0 (rest.getD 0 0) (rest.getD 1 0)
    if d.1.legal = false then .error (.illegalOpcode b0)
    else if rest.length + 1 < d.2 then .error (.truncated b0)
    else .ok (d.1, rest.drop (d.2 - 1))

/-- The bytes, in stream order, of a table word of `nbits` bits: the first byte is the low one, except
that the table numbers a two-byte prefixed row as `{0xCB, op2}` with the prefix byte high
(30_encoding.md rule R93; log entry 6). Bits above `nbits` are 0. -/
def tableBytes (nbits w : Nat) : Byte × Byte × Byte :=
  let v := w % 2 ^ nbits
  let b0 : Byte := .ofNat 8 v
  let b1 : Byte := .ofNat 8 (v / 256)
  let b2 : Byte := .ofNat 8 (v / 65536)
  if 8 < nbits ∧ nbits ≤ 16 ∧ b1 = 0xCB#8 then (b1, b0, 0) else (b0, b1, b2)

/-- The record read from a word numbered as spec/opcode_table.json numbers it (log entry 6). -/
def decodeTableWord (nbits w : Nat) : Option Instr :=
  if nbits = 0 ∨ 24 < nbits then none
  else
    let b := tableBytes nbits w
    some (decodeRow b.1 b.2.1 b.2.2).1

/-! ### The encoder -/

/-- `OP_N16` and `OP_A16`: opcode, low byte, high byte (20_memory.md rule R56). -/
def encode16 (op : Byte) (w : Word) : List Byte := [op, lo8 w, hi8 w]

/-- The bytes of an instruction at ascending addresses (30_encoding.md rules R83, R94 to R97, R105). -/
def encode : Instr → List Byte
  | .nop => [0b00000000#8]
  | .ldR16N16 r n => encode16 (0b00#2 ++ r.code ++ 0b0001#4) n
  | .ldR16MemA m => [0b00#2 ++ m.code ++ 0b0010#4]
  | .incR16 r => [0b00#2 ++ r.code ++ 0b0011#4]
  | .incR8 r => [0b00#2 ++ r.code ++ 0b100#3]
  | .decR8 r => [0b00#2 ++ r.code ++ 0b101#3]
  | .ldR8N8 r n => [0b00#2 ++ r.code ++ 0b110#3, n]
  | .rlca => [0b00000111#8]
  | .rrca => [0b00001111#8]
  | .rla => [0b00010111#8]
  | .rra => [0b00011111#8]
  | .daa => [0b00100111#8]
  | .cpl => [0b00101111#8]
  | .scf => [0b00110111#8]
  | .ccf => [0b00111111#8]
  | .ldA16Sp a => encode16 0b00001000#8 a
  | .addHlR16 r => [0b00#2 ++ r.code ++ 0b1001#4]
  | .ldAR16Mem m => [0b00#2 ++ m.code ++ 0b1010#4]
  | .decR16 r => [0b00#2 ++ r.code ++ 0b1011#4]
  | .stop => [0b00010000#8]
  | .jrE8 e => [0b00011000#8, e]
  | .jrCcE8 cc e => [0b001#3 ++ cc.code ++ 0b000#3, e]
  | .halt => [0b01110110#8]
  | .ldR8R8 dst src => [0b01#2 ++ dst.code ++ src.code]
  | .addAR8 r => [0b10000#5 ++ r.code]
  | .adcAR8 r => [0b10001#5 ++ r.code]
  | .subAR8 r => [0b10010#5 ++ r.code]
  | .sbcAR8 r => [0b10011#5 ++ r.code]
  | .andAR8 r => [0b10100#5 ++ r.code]
  | .xorAR8 r => [0b10101#5 ++ r.code]
  | .orAR8 r => [0b10110#5 ++ r.code]
  | .cpAR8 r => [0b10111#5 ++ r.code]
  | .retCc cc => [0b110#3 ++ cc.code ++ 0b000#3]
  | .popR16Stk r => [0b11#2 ++ r.code ++ 0b0001#4]
  | .jpCcA16 cc a => encode16 (0b110#3 ++ cc.code ++ 0b010#3) a
  | .jpA16 a => encode16 0b11000011#8 a
  | .callCcA16 cc a => encode16 (0b110#3 ++ cc.code ++ 0b100#3) a
  | .pushR16Stk r => [0b11#2 ++ r.code ++ 0b0101#4]
  | .addAN8 n => [0b11000110#8, n]
  | .adcAN8 n => [0b11001110#8, n]
  | .subAN8 n => [0b11010110#8, n]
  | .sbcAN8 n => [0b11011110#8, n]
  | .andAN8 n => [0b11100110#8, n]
  | .xorAN8 n => [0b11101110#8, n]
  | .orAN8 n => [0b11110110#8, n]
  | .cpAN8 n => [0b11111110#8, n]
  | .rst y => [0b11#2 ++ y ++ 0b111#3]
  | .ret => [0b11001001#8]
  | .reti => [0b11011001#8]
  | .jpHl => [0b11101001#8]
  | .ldSpHl => [0b11111001#8]
  | .cbPrefix op2 => [0b11001011#8, op2]
  | .callA16 a => encode16 0b11001101#8 a
  | .ldhA8A a => [0b11100000#8, a]
  | .ldhAA8 a => [0b11110000#8, a]
  | .ldhCA => [0b11100010#8]
  | .ldhAC => [0b11110010#8]
  | .addSpE8 e => [0b11101000#8, e]
  | .ldHlSpE8 e => [0b11111000#8, e]
  | .ldA16A a => encode16 0b11101010#8 a
  | .ldAA16 a => encode16 0b11111010#8 a
  | .di => [0b11110011#8]
  | .ei => [0b11111011#8]
  | .illegalD3 => [0xD3#8]
  | .illegalDB => [0xDB#8]
  | .illegalDD => [0xDD#8]
  | .illegalE3 => [0xE3#8]
  | .illegalE4 => [0xE4#8]
  | .illegalEB => [0xEB#8]
  | .illegalEC => [0xEC#8]
  | .illegalED => [0xED#8]
  | .illegalF4 => [0xF4#8]
  | .illegalFC => [0xFC#8]
  | .illegalFD => [0xFD#8]
  | .rlcR8 r => [0b11001011#8, 0b00000#5 ++ r.code]
  | .rrcR8 r => [0b11001011#8, 0b00001#5 ++ r.code]
  | .rlR8 r => [0b11001011#8, 0b00010#5 ++ r.code]
  | .rrR8 r => [0b11001011#8, 0b00011#5 ++ r.code]
  | .slaR8 r => [0b11001011#8, 0b00100#5 ++ r.code]
  | .sraR8 r => [0b11001011#8, 0b00101#5 ++ r.code]
  | .swapR8 r => [0b11001011#8, 0b00110#5 ++ r.code]
  | .srlR8 r => [0b11001011#8, 0b00111#5 ++ r.code]
  | .bitBR8 b r => [0b11001011#8, 0b01#2 ++ b ++ r.code]
  | .resBR8 b r => [0b11001011#8, 0b10#2 ++ b ++ r.code]
  | .setBR8 b r => [0b11001011#8, 0b11#2 ++ b ++ r.code]

/-- The length in bytes, as rule R84 lists it by format (30_encoding.md rules R83, R84). -/
def Instr.length : Instr → Nat
  | .ldR16N16 _ _ | .jpA16 _ | .jpCcA16 _ _ | .callA16 _ | .callCcA16 _ _ => 3
  | .ldA16Sp _ | .ldA16A _ | .ldAA16 _ => 3
  | .ldR8N8 _ _ | .addAN8 _ | .adcAN8 _ | .subAN8 _ | .sbcAN8 _ => 2
  | .andAN8 _ | .xorAN8 _ | .orAN8 _ | .cpAN8 _ => 2
  | .jrE8 _ | .jrCcE8 _ _ | .addSpE8 _ | .ldHlSpE8 _ | .ldhA8A _ | .ldhAA8 _ => 2
  | .cbPrefix _ | .rlcR8 _ | .rrcR8 _ | .rlR8 _ | .rrR8 _ | .slaR8 _ | .sraR8 _ | .swapR8 _ | .srlR8 _ => 2
  | .bitBR8 _ _ | .resBR8 _ _ | .setBR8 _ _ => 2
  | _ => 1

end Sys2Proof
end

