-- ==== Sys2Proof/Machine/Rotate.lean ====
section
/-! DEFINITION. Rotates, shifts, SWAP and the bit instructions (42_rotate_bit.md). -/

namespace Sys2Proof.Machine

/-- A CB-space rotate, shift or SWAP: `v = r8[z]; r8[z] <- r`, Z from the result, N = H = 0, C the
carry-out (42_rotate_bit.md section 3). -/
def rotR8 (op : RotOp) (r : R8) (s : State) : State :=
  let v := readR8 r s
  let w := rotResult op v s.flagC
  (writeR8 r w s).setFlags (w == 0) false false (rotCarry op v)

/-- An accumulator-only rotate: Z, N and H are always cleared (42_rotate_bit.md rule R161). -/
def rotA (op : RotOp) (s : State) : State :=
  (s.setA (rotResult op s.a s.flagC)).setFlags false false false (rotCarry op s.a)

/-- Z = the tested bit is 0, N = 0, H = 1, C kept; no write-back (42_rotate_bit.md rule R173). -/
def testBit (b : BitVec 3) (r : R8) (s : State) : State :=
  s.setFlags (!(readR8 r s).getLsbD b.toNat) false true s.flagC

/-- `r8[z] <- v & ~(1 << b)`, no flags (42_rotate_bit.md rule R174). -/
def clearBit (b : BitVec 3) (r : R8) (s : State) : State := writeR8 r (readR8 r s &&& ~~~bitMask b) s

/-- `r8[z] <- v | (1 << b)`, no flags (42_rotate_bit.md rule R175). -/
def raiseBit (b : BitVec 3) (r : R8) (s : State) : State := writeR8 r (readR8 r s ||| bitMask b) s

/-- RLCA (42_rotate_bit.md rule R161). -/
def execRlca (s : State) : Host.Outcome State Fault Refusal :=
  .next (rotA .rlc s)

/-- RRCA (42_rotate_bit.md rule R162). -/
def execRrca (s : State) : Host.Outcome State Fault Refusal :=
  .next (rotA .rrc s)

/-- RLA (42_rotate_bit.md rule R163). -/
def execRla (s : State) : Host.Outcome State Fault Refusal :=
  .next (rotA .rl s)

/-- RRA (42_rotate_bit.md rule R164). -/
def execRra (s : State) : Host.Outcome State Fault Refusal :=
  .next (rotA .rr s)

/-- RLC r8 (42_rotate_bit.md rule R165). -/
def execRlcR8 (r : R8) (s : State) : Host.Outcome State Fault Refusal :=
  .next (rotR8 .rlc r s)

/-- RRC r8 (42_rotate_bit.md rule R166). -/
def execRrcR8 (r : R8) (s : State) : Host.Outcome State Fault Refusal :=
  .next (rotR8 .rrc r s)

/-- RL r8 (42_rotate_bit.md rule R167). -/
def execRlR8 (r : R8) (s : State) : Host.Outcome State Fault Refusal :=
  .next (rotR8 .rl r s)

/-- RR r8 (42_rotate_bit.md rule R168). -/
def execRrR8 (r : R8) (s : State) : Host.Outcome State Fault Refusal :=
  .next (rotR8 .rr r s)

/-- SLA r8 (42_rotate_bit.md rule R169). -/
def execSlaR8 (r : R8) (s : State) : Host.Outcome State Fault Refusal :=
  .next (rotR8 .sla r s)

/-- SRA r8 (42_rotate_bit.md rule R170). -/
def execSraR8 (r : R8) (s : State) : Host.Outcome State Fault Refusal :=
  .next (rotR8 .sra r s)

/-- SWAP r8 (42_rotate_bit.md rule R171). -/
def execSwapR8 (r : R8) (s : State) : Host.Outcome State Fault Refusal :=
  .next (rotR8 .swap r s)

/-- SRL r8 (42_rotate_bit.md rule R172). -/
def execSrlR8 (r : R8) (s : State) : Host.Outcome State Fault Refusal :=
  .next (rotR8 .srl r s)

/-- BIT b,r8 (42_rotate_bit.md rule R173). -/
def execBitBR8 (b : BitVec 3) (r : R8) (s : State) : Host.Outcome State Fault Refusal :=
  .next (testBit b r s)

/-- RES b,r8 (42_rotate_bit.md rule R174). -/
def execResBR8 (b : BitVec 3) (r : R8) (s : State) : Host.Outcome State Fault Refusal :=
  .next (clearBit b r s)

/-- SET b,r8 (42_rotate_bit.md rule R175). -/
def execSetBR8 (b : BitVec 3) (r : R8) (s : State) : Host.Outcome State Fault Refusal :=
  .next (raiseBit b r s)

end Sys2Proof.Machine
end

