-- ==== Sys2Proof/Machine/Misc.lean ====
section
/-! DEFINITION. NOP, STOP, HALT, DI, EI, PREFIX and the eleven illegal bytes (46_misc.md). -/

namespace Sys2Proof.Machine

/-- NOP (46_misc.md rule R240). -/
def execNop (s : State) : Host.Outcome State Fault Refusal :=
  .next s

/-- STOP, one byte long (46_misc.md rule R241). -/
def execStop (s : State) : Host.Outcome State Fault Refusal :=
  .next (s.setLowPower true)

/-- HALT (46_misc.md rule R242). -/
def execHalt (s : State) : Host.Outcome State Fault Refusal :=
  .next (s.setHalted true)

/-- DI, in the same step (46_misc.md rule R243). -/
def execDi (s : State) : Host.Outcome State Fault Refusal :=
  .next (s.setIme false)

/-- EI, in the same step: no delay latch (46_misc.md rule R244). -/
def execEi (s : State) : Host.Outcome State Fault Refusal :=
  .next (s.setIme true)

/-- The rotate operation of the CB-space selector `y` (30_encoding.md rule R106). -/
def RotOp.ofSelector (y : BitVec 3) : RotOp :=
  match y.toNat with
  | 0 => .rlc
  | 1 => .rrc
  | 2 => .rl
  | 3 => .rr
  | 4 => .sla
  | 5 => .sra
  | 6 => .swap
  | _ => .srl

/-- PREFIX with its second opcode byte: no effect of its own, the CB-space entry for `op2` executes
(46_misc.md rule R245, 30_encoding.md rule R105). -/
def execCbPrefix (op2 : Byte) (s : State) : Host.Outcome State Fault Refusal :=
  let r := R8.ofCode (fieldZ op2)
  match (fieldX op2).toNat with
  | 0 => .next (rotR8 (.ofSelector (fieldY op2)) r s)
  | 1 => .next (testBit (fieldY op2) r s)
  | 2 => .next (clearBit (fieldY op2) r s)
  | _ => .next (raiseBit (fieldY op2) r s)

/-- The illegal byte 0xD3 (46_misc.md rule R246, 60_exceptions.md rule R251). -/
def execIllegalD3 (s : State) : Host.Outcome State Fault Refusal :=
  raiseIllegalOpcode 0xD3#8 s

/-- The illegal byte 0xDB (46_misc.md rule R246, 60_exceptions.md rule R251). -/
def execIllegalDB (s : State) : Host.Outcome State Fault Refusal :=
  raiseIllegalOpcode 0xDB#8 s

/-- The illegal byte 0xDD (46_misc.md rule R246, 60_exceptions.md rule R251). -/
def execIllegalDD (s : State) : Host.Outcome State Fault Refusal :=
  raiseIllegalOpcode 0xDD#8 s

/-- The illegal byte 0xE3 (46_misc.md rule R246, 60_exceptions.md rule R251). -/
def execIllegalE3 (s : State) : Host.Outcome State Fault Refusal :=
  raiseIllegalOpcode 0xE3#8 s

/-- The illegal byte 0xE4 (46_misc.md rule R246, 60_exceptions.md rule R251). -/
def execIllegalE4 (s : State) : Host.Outcome State Fault Refusal :=
  raiseIllegalOpcode 0xE4#8 s

/-- The illegal byte 0xEB (46_misc.md rule R246, 60_exceptions.md rule R251). -/
def execIllegalEB (s : State) : Host.Outcome State Fault Refusal :=
  raiseIllegalOpcode 0xEB#8 s

/-- The illegal byte 0xEC (46_misc.md rule R246, 60_exceptions.md rule R251). -/
def execIllegalEC (s : State) : Host.Outcome State Fault Refusal :=
  raiseIllegalOpcode 0xEC#8 s

/-- The illegal byte 0xED (46_misc.md rule R246, 60_exceptions.md rule R251). -/
def execIllegalED (s : State) : Host.Outcome State Fault Refusal :=
  raiseIllegalOpcode 0xED#8 s

/-- The illegal byte 0xF4 (46_misc.md rule R246, 60_exceptions.md rule R251). -/
def execIllegalF4 (s : State) : Host.Outcome State Fault Refusal :=
  raiseIllegalOpcode 0xF4#8 s

/-- The illegal byte 0xFC (46_misc.md rule R246, 60_exceptions.md rule R251). -/
def execIllegalFC (s : State) : Host.Outcome State Fault Refusal :=
  raiseIllegalOpcode 0xFC#8 s

/-- The illegal byte 0xFD (46_misc.md rule R246, 60_exceptions.md rule R251). -/
def execIllegalFD (s : State) : Host.Outcome State Fault Refusal :=
  raiseIllegalOpcode 0xFD#8 s

end Sys2Proof.Machine
end

