-- ==== Sys2Proof/Machine/Stack.lean ====
section
/-! DEFINITION. PUSH and POP (44_stack.md). -/

namespace Sys2Proof.Machine

/-- PUSH r16stk (44_stack.md rule R202). -/
def execPushR16Stk (r : R16Stk) (s : State) : Host.Outcome State Fault Refusal :=
  .next (s.push16 (readR16Stk r s))

/-- POP r16stk; POP AF masks F (44_stack.md rule R203). -/
def execPopR16Stk (r : R16Stk) (s : State) : Host.Outcome State Fault Refusal :=
  .next (writeR16Stk r s.top16 s.drop16)

end Sys2Proof.Machine
end

