-- ==== Sys2Proof/Machine/Dispatch.lean ====
section
/-! DEFINITION. The dispatch: one arm per instruction, each one call of its meaning. PC is already past
the instruction's bytes, so `exec` is the Operation of the `execute` port (60_exceptions.md rule R271). -/

namespace Sys2Proof.Machine

/-- Run one instruction record on a state whose PC has advanced past it (60_exceptions.md rules R270, R271). -/
def exec (i : Instr) (s : State) : Host.Outcome State Fault Refusal :=
  match i with
  | .nop => Sys2Proof.Machine.execNop s
  | .ldR16N16 r n16 => Sys2Proof.Machine.execLdR16N16 r n16 s
  | .ldR16MemA m => Sys2Proof.Machine.execLdR16MemA m s
  | .incR16 r => Sys2Proof.Machine.execIncR16 r s
  | .incR8 r => Sys2Proof.Machine.execIncR8 r s
  | .decR8 r => Sys2Proof.Machine.execDecR8 r s
  | .ldR8N8 r n8 => Sys2Proof.Machine.execLdR8N8 r n8 s
  | .rlca => Sys2Proof.Machine.execRlca s
  | .rrca => Sys2Proof.Machine.execRrca s
  | .rla => Sys2Proof.Machine.execRla s
  | .rra => Sys2Proof.Machine.execRra s
  | .daa => Sys2Proof.Machine.execDaa s
  | .cpl => Sys2Proof.Machine.execCpl s
  | .scf => Sys2Proof.Machine.execScf s
  | .ccf => Sys2Proof.Machine.execCcf s
  | .ldA16Sp a16 => Sys2Proof.Machine.execLdA16Sp a16 s
  | .addHlR16 r => Sys2Proof.Machine.execAddHlR16 r s
  | .ldAR16Mem m => Sys2Proof.Machine.execLdAR16Mem m s
  | .decR16 r => Sys2Proof.Machine.execDecR16 r s
  | .stop => Sys2Proof.Machine.execStop s
  | .jrE8 e8 => Sys2Proof.Machine.execJrE8 e8 s
  | .jrCcE8 cc e8 => Sys2Proof.Machine.execJrCcE8 cc e8 s
  | .halt => Sys2Proof.Machine.execHalt s
  | .ldR8R8 dst src => Sys2Proof.Machine.execLdR8R8 dst src s
  | .addAR8 r => Sys2Proof.Machine.execAddAR8 r s
  | .adcAR8 r => Sys2Proof.Machine.execAdcAR8 r s
  | .subAR8 r => Sys2Proof.Machine.execSubAR8 r s
  | .sbcAR8 r => Sys2Proof.Machine.execSbcAR8 r s
  | .andAR8 r => Sys2Proof.Machine.execAndAR8 r s
  | .xorAR8 r => Sys2Proof.Machine.execXorAR8 r s
  | .orAR8 r => Sys2Proof.Machine.execOrAR8 r s
  | .cpAR8 r => Sys2Proof.Machine.execCpAR8 r s
  | .retCc cc => Sys2Proof.Machine.execRetCc cc s
  | .popR16Stk r => Sys2Proof.Machine.execPopR16Stk r s
  | .jpCcA16 cc a16 => Sys2Proof.Machine.execJpCcA16 cc a16 s
  | .jpA16 a16 => Sys2Proof.Machine.execJpA16 a16 s
  | .callCcA16 cc a16 => Sys2Proof.Machine.execCallCcA16 cc a16 s
  | .pushR16Stk r => Sys2Proof.Machine.execPushR16Stk r s
  | .addAN8 n8 => Sys2Proof.Machine.execAddAN8 n8 s
  | .adcAN8 n8 => Sys2Proof.Machine.execAdcAN8 n8 s
  | .subAN8 n8 => Sys2Proof.Machine.execSubAN8 n8 s
  | .sbcAN8 n8 => Sys2Proof.Machine.execSbcAN8 n8 s
  | .andAN8 n8 => Sys2Proof.Machine.execAndAN8 n8 s
  | .xorAN8 n8 => Sys2Proof.Machine.execXorAN8 n8 s
  | .orAN8 n8 => Sys2Proof.Machine.execOrAN8 n8 s
  | .cpAN8 n8 => Sys2Proof.Machine.execCpAN8 n8 s
  | .rst y => Sys2Proof.Machine.execRst y s
  | .ret => Sys2Proof.Machine.execRet s
  | .reti => Sys2Proof.Machine.execReti s
  | .jpHl => Sys2Proof.Machine.execJpHl s
  | .ldSpHl => Sys2Proof.Machine.execLdSpHl s
  | .cbPrefix op2 => Sys2Proof.Machine.execCbPrefix op2 s
  | .callA16 a16 => Sys2Proof.Machine.execCallA16 a16 s
  | .ldhA8A a8 => Sys2Proof.Machine.execLdhA8A a8 s
  | .ldhAA8 a8 => Sys2Proof.Machine.execLdhAA8 a8 s
  | .ldhCA => Sys2Proof.Machine.execLdhCA s
  | .ldhAC => Sys2Proof.Machine.execLdhAC s
  | .addSpE8 e8 => Sys2Proof.Machine.execAddSpE8 e8 s
  | .ldHlSpE8 e8 => Sys2Proof.Machine.execLdHlSpE8 e8 s
  | .ldA16A a16 => Sys2Proof.Machine.execLdA16A a16 s
  | .ldAA16 a16 => Sys2Proof.Machine.execLdAA16 a16 s
  | .di => Sys2Proof.Machine.execDi s
  | .ei => Sys2Proof.Machine.execEi s
  | .illegalD3 => Sys2Proof.Machine.execIllegalD3 s
  | .illegalDB => Sys2Proof.Machine.execIllegalDB s
  | .illegalDD => Sys2Proof.Machine.execIllegalDD s
  | .illegalE3 => Sys2Proof.Machine.execIllegalE3 s
  | .illegalE4 => Sys2Proof.Machine.execIllegalE4 s
  | .illegalEB => Sys2Proof.Machine.execIllegalEB s
  | .illegalEC => Sys2Proof.Machine.execIllegalEC s
  | .illegalED => Sys2Proof.Machine.execIllegalED s
  | .illegalF4 => Sys2Proof.Machine.execIllegalF4 s
  | .illegalFC => Sys2Proof.Machine.execIllegalFC s
  | .illegalFD => Sys2Proof.Machine.execIllegalFD s
  | .rlcR8 r => Sys2Proof.Machine.execRlcR8 r s
  | .rrcR8 r => Sys2Proof.Machine.execRrcR8 r s
  | .rlR8 r => Sys2Proof.Machine.execRlR8 r s
  | .rrR8 r => Sys2Proof.Machine.execRrR8 r s
  | .slaR8 r => Sys2Proof.Machine.execSlaR8 r s
  | .sraR8 r => Sys2Proof.Machine.execSraR8 r s
  | .swapR8 r => Sys2Proof.Machine.execSwapR8 r s
  | .srlR8 r => Sys2Proof.Machine.execSrlR8 r s
  | .bitBR8 b r => Sys2Proof.Machine.execBitBR8 b r s
  | .resBR8 b r => Sys2Proof.Machine.execResBR8 b r s
  | .setBR8 b r => Sys2Proof.Machine.execSetBR8 b r s

end Sys2Proof.Machine
end

