-- ==== Sys2Proof/Machine/Fetch.lean ====
section
/-! DEFINITION. Fetching: the record at PC, and placing an instruction where the next step fetches it. -/

namespace Sys2Proof.Machine

/-- The record the decoder reads at PC and the bytes it takes: "a pure function of PC and the bytes at
PC, PC+1, PC+2" (30_encoding.md rule R86); addresses wrap (10_state.md rule R28). -/
def State.fetched (s : State) : Instr × Nat :=
  decodeRow (s.readByte s.pc) (s.readByte (s.pc + 1)) (s.readByte (s.pc + 2))

/-- The state with the fetch done: PC past the whole instruction (10_state.md rule R26). -/
def State.afterFetch (s : State) : State := s.advancePc s.fetched.2

/-- The state with three bytes stored at PC. -/
def State.placeAtPc (s : State) (b0 b1 b2 : Byte) : State :=
  ((s.writeByte s.pc b0).writeByte (s.pc + 1) b1).writeByte (s.pc + 2) b2

/-- The state in which the core runs: no fault, no hold, so that its next step fetches. -/
def State.awake (s : State) : State := { s with fault := none, halted := false, lowPower := false }

/-- A table word placed where the next step fetches (log entries 6, 7). -/
def State.placeWord (s : State) (nbits w : Nat) : State :=
  let b := tableBytes nbits w
  s.awake.placeAtPc b.1 b.2.1 b.2.2

end Sys2Proof.Machine
end

