-- ==== Sys2Proof/Machine/Step.lean ====
section
/-! DEFINITION. The step function (60_exceptions.md rule R270). -/

namespace Sys2Proof.Machine

/-- One step: a faulted core answers its fault again and changes nothing (rule R259); a held core changes
nothing (rule R264; the outcome `Held` is `next` of the same state, log entry 3); otherwise one whole
fetch-decode-execute cycle. -/
def step (s : State) : Host.Outcome State Fault Refusal :=
  match s.fault with
  | some r => .fault (r.report s)
  | none => if s.held then .next s else exec s.fetched.1 s.afterFetch

/-- The state with the instruction of a table word stored at PC and the core running, so that the very
next step fetches and runs exactly it (log entry 7). -/
def State.withFetchWord (s : State) (nbits w : Nat) : State := s.placeWord nbits w

end Sys2Proof.Machine
end

