-- ==== Sys2Proof/Machine/Bus.lean ====
section
/-! DEFINITION. The bus accesses of a step: the table of 20_memory.md rule R59 and the order of rule R62.
On the reference bus an access has no effect but the memory it writes (rule R50), so `exec` does not
carry this list; it says what the core drives on its one interface. -/

namespace Sys2Proof.Machine

/-- One access to the bus, by its address (20_memory.md rules R51 to R54). -/
inductive Access where
  | readByte (addr : Word)
  | readWord (addr : Word)
  | writeByte (addr : Word)
  | writeWord (addr : Word)
  deriving DecidableEq, Repr

/-- The addresses of the bytes an access writes. -/
def Access.written : Access → List Word
  | .readByte _ => []
  | .readWord _ => []
  | .writeByte addr => [addr]
  | .writeWord addr => [addr, addr + 1]

/-- The addresses of the bytes an access reads. -/
def Access.observed : Access → List Word
  | .readByte addr => [addr]
  | .readWord addr => [addr, addr + 1]
  | .writeByte _ => []
  | .writeWord _ => []

/-- Reading `r8[i]`: one byte read at HL for index 6 (20_memory.md rule R59). -/
def readsR8 (r : R8) (s : State) : List Access :=
  if r = .hlInd then [.readByte s.hl] else []

/-- Writing `r8[i]`: one byte write at HL for index 6 (20_memory.md rule R59). -/
def writesR8 (r : R8) (s : State) : List Access :=
  if r = .hlInd then [.writeByte s.hl] else []

/-- Read then write of `r8[i]` (20_memory.md rule R59). -/
def updatesR8 (r : R8) (s : State) : List Access := readsR8 r s ++ writesR8 r s

/-- The data accesses an instruction makes, in order, from the state its execution starts in
(20_memory.md rules R59, R62). A conditional instruction that is not taken makes none (rule R61). -/
def dataAccesses (i : Instr) (s : State) : List Access :=
  match i with
  | .addAR8 r | .adcAR8 r | .subAR8 r | .sbcAR8 r => readsR8 r s
  | .andAR8 r | .xorAR8 r | .orAR8 r | .cpAR8 r => readsR8 r s
  | .bitBR8 _ r => readsR8 r s
  | .ldR8R8 dst src => if dst = .hlInd ∧ src = .hlInd then [] else readsR8 src s ++ writesR8 dst s
  | .ldR8N8 r _ => writesR8 r s
  | .incR8 r | .decR8 r => updatesR8 r s
  | .rlcR8 r | .rrcR8 r | .rlR8 r | .rrR8 r => updatesR8 r s
  | .slaR8 r | .sraR8 r | .swapR8 r | .srlR8 r => updatesR8 r s
  | .resBR8 _ r | .setBR8 _ r => updatesR8 r s
  | .cbPrefix op2 =>
    if (fieldX op2).toNat = 1 then readsR8 (.ofCode (fieldZ op2)) s
    else updatesR8 (.ofCode (fieldZ op2)) s
  | .ldAR16Mem m => [.readByte (addrR16Mem m s)]
  | .ldR16MemA m => [.writeByte (addrR16Mem m s)]
  | .ldAA16 a => [.readByte a]
  | .ldA16A a => [.writeByte a]
  | .ldhAA8 a => [.readByte (ioAddr a)]
  | .ldhA8A a => [.writeByte (ioAddr a)]
  | .ldhAC => [.readByte (ioAddr s.c)]
  | .ldhCA => [.writeByte (ioAddr s.c)]
  | .ldA16Sp a => [.writeWord a]
  | .pushR16Stk _ | .callA16 _ | .rst _ => [.writeWord (s.sp - 2)]
  | .callCcA16 cc _ => if cond cc s then [.writeWord (s.sp - 2)] else []
  | .popR16Stk _ | .ret | .reti => [.readWord s.sp]
  | .retCc cc => if cond cc s then [.readWord s.sp] else []
  | _ => []

/-- The fetch accesses of a step: the opcode byte, then the second opcode byte or the immediate
(20_memory.md rule R62). -/
def fetchAccesses (s : State) : List Access :=
  match lookup (s.readByte s.pc) with
  | .plain _ => [.readByte s.pc]
  | .imm8 _ => [.readByte s.pc, .readByte (s.pc + 1)]
  | .imm16 _ => [.readByte s.pc, .readWord (s.pc + 1)]
  | .prefixed => [.readByte s.pc, .readByte (s.pc + 1)]

/-- Every bus access of one step, in order; a faulted or held core makes none
(20_memory.md rule R62, 60_exceptions.md rules R259, R264). -/
def stepAccesses (s : State) : List Access :=
  if s.fault.isSome || s.held then [] else fetchAccesses s ++ dataAccesses s.fetched.1 s.afterFetch

end Sys2Proof.Machine
end

