-- ==== Sys2Proof/Machine/Driver.lean ====
section
/-! DEFINITION. The core's other ports: what the driver (the spec's host) may do between steps
(60_exceptions.md rules R268, R269, R271), the three-way outcome, and runs. The accessors of rule R268 are
`State`'s fields and the views and flags of Ops.lean and Flags.lean. -/

namespace Sys2Proof.Machine

/-- The `execute` port: gated like `step`; a well-formed record runs on the current PC, an ill-formed one
raises IllegalInstruction before any change but the fault status (60_exceptions.md rule R271). -/
def executePort (i : Instr) (s : State) : Host.Outcome State Fault Refusal :=
  match s.fault with
  | some r => .fault (r.report s)
  | none =>
    if s.held then .next s
    else if i.wellFormed then exec i s
    else raiseIllegalInstruction i s

/-- The reset action: every item of 10_state.md rule R40 at once; memory is not touched
(70_reset_and_hazards.md rules R280, R282). -/
def State.resetCore (s : State) : State := { State.reset with mem := s.mem }

/-- The launch state of a run: reset, with the launch parameter MEM0 behind the bus
(60_exceptions.md rule R267, 70_reset_and_hazards.md rule R282). -/
def State.launch (mem0 : Memory) : State := { State.reset with mem := mem0 }

/-- What the driver may do between steps (60_exceptions.md rule R269). Filling the memory before the
first step is a sequence of `writeMemory`. -/
inductive DriverAction where
  | reset
  | step
  | execute (record : Instr)
  | writeMemory (addr : Word) (v : Byte)
  | clearHalted
  | clearLowPower
  | setIme (v : Bool)
  deriving DecidableEq, Repr

/-- The state a fault leaves. -/
def Fault.after : Fault → State
  | .illegalOpcode _ _ t => t
  | .illegalInstruction _ t => t

/-- The state an outcome leaves: a fault leaves the state it carries; a refusal, which no instruction of
this model gives, would leave the state as it was. -/
def stateAfter (o : Host.Outcome State Fault Refusal) (s : State) : State :=
  match o with
  | .next t => t
  | .fault r => r.after
  | .refused _ => s

/-- The state after one driver action (60_exceptions.md rule R269). -/
def drive (act : DriverAction) (s : State) : State :=
  match act with
  | .reset => s.resetCore
  | .step => stateAfter (Machine.step s) s
  | .execute record => stateAfter (executePort record s) s
  | .writeMemory addr v => s.writeByte addr v
  | .clearHalted => s.setHalted false
  | .clearLowPower => s.setLowPower false
  | .setIme v => s.setIme v

/-- The state after a sequence of driver actions. -/
def driveAll : List DriverAction → State → State
  | [], s => s
  | act :: acts, s => driveAll acts (drive act s)

/-! ### The three outcomes -/

/-- The spec's outcome of a step or of the `execute` port, `σ` being what it leaves (00_scope.md rule R7). The
host's own type (Host/Core.lean) has no `Held`; `step` and `executePort` show it as the state unchanged
(log entry 3). -/
inductive StepOutcome (σ : Type) where
  /-- `Next(s')`. -/
  | next (s : σ)
  /-- `Fault(reason)`, with the state it leaves (log entry 4). -/
  | fault (reason : FaultStatus) (after : σ)
  /-- `Held`: the core has no step, and nothing changes. -/
  | held
  /-- The host's refusal. No outcome of the spec, and no step or execute of this model ends so. -/
  | unmodelled (r : Refusal)
  deriving DecidableEq, Repr

/-- The reason of a fault (60_exceptions.md rule R250). -/
def Fault.reason : Fault → FaultStatus
  | .illegalOpcode byte addr _ => .illegalOpcode byte addr
  | .illegalInstruction record _ => .illegalInstruction record

/-- The outcome of an instruction that was run. -/
def StepOutcome.ofRun (o : Host.Outcome State Fault Refusal) : StepOutcome State :=
  match o with
  | .next t => .next t
  | .fault r => .fault r.reason r.after
  | .refused r => .unmodelled r

/-- The gates of rules R259 and R264, before anything runs: a faulted core answers its fault, a held core
answers `Held`, and nothing changes in either case. -/
def gate {σ : Type} (core : State) (here : σ) (run : StepOutcome σ) : StepOutcome σ :=
  match core.fault with
  | some r => .fault r here
  | none => if core.held then .held else run

/-- The three-way outcome of one step (60_exceptions.md rule R270). -/
def stepOutcome (s : State) : StepOutcome State := gate s s (.ofRun (exec s.fetched.1 s.afterFetch))

/-- The three-way outcome of the `execute` port (60_exceptions.md rule R271). -/
def executeOutcome (i : Instr) (s : State) : StepOutcome State :=
  gate s s (.ofRun (if i.wellFormed then exec i s else raiseIllegalInstruction i s))

/-! ### Run states and runs -/

/-- The four run states (60_exceptions.md rule R266). -/
inductive RunState where
  | faulted | stopped | halted | running
  deriving DecidableEq, Repr

/-- The run state, "decided by the state alone" (60_exceptions.md rule R266). DESIGN CHOICE (log entry 12): a
state with both `halted` and `low_power` set, which only a driver's start state can have, is called
`stopped`; rule R266 makes it both, and the spec's U15 says only that it is held. -/
def State.runState (s : State) : RunState :=
  if s.fault.isSome then .faulted else if s.lowPower then .stopped else if s.halted then .halted else .running

/-- How a run ends (60_exceptions.md rule R267). -/
inductive RunEnd where
  /-- The first state with `halted` = 1: the normal end. -/
  | finished (s : State)
  /-- `low_power` = 1 was reached: not a normal end. -/
  | stopped (s : State)
  /-- The core is faulted: not a normal end. -/
  | faulted (r : Fault)
  /-- The run has not ended within the steps allowed. -/
  | unfinished (s : State)
  deriving DecidableEq, Repr

/-- The end of a run at this state, if it ends here: by its run state, so that a faulted state is never a
normal end (60_exceptions.md rules R259, R266, R267), and with both hold flags set the end is `stopped`
(log entry 12). -/
def endsAt (s : State) : Option RunEnd :=
  match s.fault with
  | some r => some (.faulted (r.report s))
  | none =>
    match s.runState with
    | .stopped => some (.stopped s)
    | .halted => some (.finished s)
    | .running => none
    | .faulted => none

/-- A run of at most `n` steps with no driver action in between (60_exceptions.md rule R267). -/
def runFor : Nat → State → RunEnd
  | 0, s => (endsAt s).getD (.unfinished s)
  | n + 1, s =>
    match endsAt s with
    | some e => e
    | none =>
      match Machine.step s with
      | .next t => runFor n t
      | .fault r => .faulted r
      | .refused _ => .unfinished s

end Sys2Proof.Machine
end

