-- ==== Sys2Proof/Machine/Platform.lean ====
section
/-! DEFINITION. The core on any bus: the open parameter BUS of 00_scope.md rule R5 as an argument. The core
"performs exactly the accesses of rules R59 and R62, each exactly once" (20_memory.md rule R61), so a step is
its fetch accesses, its data reads, the instruction on the bytes they gave, and its data writes. `step`
is the core on the reference bus. -/

namespace Sys2Proof.Machine

/-- A memory bus: the four operations the core requires, over a platform's state `M`. Each access may change
that state and each always answers (20_memory.md rules R50 to R54, R61). A word access is one
transaction, so no order of its bytes is fixed here. -/
structure Bus (M : Type) where
  readByte : Word → M → Byte × M
  readWord : Word → M → Word × M
  writeByte : Word → Byte → M → M
  writeWord : Word → Word → M → M

/-- The reference bus: the flat array, no side effects (20_memory.md rules R50 to R54). -/
def referenceBus : Bus Memory where
  readByte addr m := (Memory.read m addr.toNat, m)
  readWord addr m := (mkWord (Memory.read m (addr + 1).toNat) (Memory.read m addr.toNat), m)
  writeByte addr v m := Memory.write m addr.toNat v
  writeWord addr w m := Memory.write (Memory.write m addr.toNat (lo8 w)) (addr + 1).toNat (hi8 w)

/-- The core's own state: memory is the bus's, not the core's (10_state.md rules R20 to R39). -/
def State.bare (s : State) : State := { s with mem := [] }

/-- The core and the reference bus's memory, apart. -/
def State.apart (s : State) : State × Memory := (s.bare, s.mem)

variable {M : Type}

/-- The fetch accesses at PC, in order: the record, the bytes it takes, and the bus after
(20_memory.md rule R62, 30_encoding.md rule R86). -/
def fetchOn (bus : Bus M) (pc : Word) (m : M) : (Instr × Nat) × M :=
  let op := bus.readByte pc m
  match lookup op.1 with
  | .plain i => ((i, 1), op.2)
  | .imm8 k => let b := bus.readByte (pc + 1) op.2; ((k b.1, 2), b.2)
  | .imm16 k => let w := bus.readWord (pc + 1) op.2; ((k w.1, 3), w.2)
  | .prefixed => let b := bus.readByte (pc + 1) op.2; ((cbLookup b.1, 2), b.2)

/-- One data read: the core with the bytes the bus answered, and the bus after. A write waits. -/
def serveRead (bus : Bus M) (p : State × M) : Access → State × M
  | .readByte addr => let r := bus.readByte addr p.2; (p.1.writeByte addr r.1, r.2)
  | .readWord addr => let r := bus.readWord addr p.2; (p.1.writeWord addr r.1, r.2)
  | .writeByte _ => p
  | .writeWord _ => p

/-- One data write, of the bytes the instruction left at its address. A read was served before. -/
def serveWrite (bus : Bus M) (done : State) (m : M) : Access → M
  | .readByte _ => m
  | .readWord _ => m
  | .writeByte addr => bus.writeByte addr (done.readByte addr) m
  | .writeWord addr => bus.writeWord addr (done.readWord addr) m

/-- One instruction on a bus: the reads of 20_memory.md rule R59, its meaning on what they gave, then the
writes; "a read before a write where both occur" (rule R62). -/
def runOn (bus : Bus M) (i : Instr) (core : State) (m : M) : StepOutcome (State × M) :=
  let accesses := dataAccesses i core
  let given := accesses.foldl (serveRead bus) (core.bare, m)
  match exec i given.1 with
  | .next done => .next (done.bare, accesses.foldl (serveWrite bus done) given.2)
  | .fault r => .fault r.reason (r.after.bare, given.2)
  | .refused r => .unmodelled r

/-- One step of the core on a bus (60_exceptions.md rule R270, 00_scope.md rule R5). -/
def stepOn (bus : Bus M) (core : State) (m : M) : StepOutcome (State × M) :=
  gate core (core.bare, m)
    (let f := fetchOn bus core.pc m
     runOn bus f.1.1 (core.advancePc f.1.2) f.2)

/-- The `execute` port of the core on a bus; an ill-formed record makes no access
(60_exceptions.md rule R271, 00_scope.md rule R5). -/
def executeOn (bus : Bus M) (i : Instr) (core : State) (m : M) : StepOutcome (State × M) :=
  gate core (core.bare, m)
    (if i.wellFormed then runOn bus i core m
     else .fault (.illegalInstruction i) ({ core.bare with fault := some (.illegalInstruction i) }, m))

/-- An outcome with what it leaves sent through a function. -/
def StepOutcome.map {σ τ : Type} (f : σ → τ) : StepOutcome σ → StepOutcome τ
  | .next s => .next (f s)
  | .fault r s => .fault r (f s)
  | .held => .held
  | .unmodelled r => .unmodelled r

end Sys2Proof.Machine
end

