-- ==== Sys2Proof/Safety.lean ====
section
/-! DEFINITION. The terms claims use: the running core, the invariant, and the spec's tables of which
instruction writes what (10_state.md rules R23, R27, R30). -/

namespace Sys2Proof.Machine

/-- The core runs: no fault, no hold (60_exceptions.md rule R266). -/
abbrev State.Running (s : State) : Prop := s.fault = none ∧ s.halted = false ∧ s.lowPower = false

/-- What every step and every driver action keeps: memory in its canonical form, the low nibble of F zero
(10_state.md rule R25), and not both hold flags set (60_exceptions.md rule R266). -/
abbrev State.Inv (s : State) : Prop :=
  Memory.wf s.mem = true ∧ s.f &&& 0x0F#8 = 0#8 ∧ ¬ (s.halted = true ∧ s.lowPower = true)

/-! ### The 8-bit registers by name -/

/-- The eight 8-bit registers (10_state.md rule R20). -/
inductive Reg8 where
  | a | f | b | c | d | e | h | l
  deriving DecidableEq, Repr

/-- The value of an 8-bit register, F as it reads (10_state.md rules R20, R25). -/
def State.reg8 (s : State) : Reg8 → Byte
  | .a => s.a
  | .f => s.getF
  | .b => s.b
  | .c => s.c
  | .d => s.d
  | .e => s.e
  | .h => s.h
  | .l => s.l

end Sys2Proof.Machine

namespace Sys2Proof

open Sys2Proof.Machine

/-- The register an `r8` operand is; `[HL]` is none. -/
def R8.regs : R8 → List Reg8
  | .b => [.b]
  | .c => [.c]
  | .d => [.d]
  | .e => [.e]
  | .h => [.h]
  | .l => [.l]
  | .hlInd => []
  | .a => [.a]

/-- The halves of an `r16` operand; SP has none. -/
def R16.regs : R16 → List Reg8
  | .bc => [.b, .c]
  | .de => [.d, .e]
  | .hl => [.h, .l]
  | .sp => []

/-- The halves of an `r16stk` operand. -/
def R16Stk.regs : R16Stk → List Reg8
  | .bc => [.b, .c]
  | .de => [.d, .e]
  | .hl => [.h, .l]
  | .af => [.a, .f]

/-- The halves an `r16mem` operand modifies: HL in the auto-index forms. -/
def R16Mem.regs : R16Mem → List Reg8
  | .bc => []
  | .de => []
  | .hlInc => [.h, .l]
  | .hlDec => [.h, .l]

/-! ### What each instruction writes -/

/-- The flags an instruction writes: the table of 10_state.md rule R30. -/
def Instr.flagsWritten : Instr → List Flag
  | .addAR8 _ | .addAN8 _ | .adcAR8 _ | .adcAN8 _ | .subAR8 _ | .subAN8 _ | .sbcAR8 _ | .sbcAN8 _ => [.z, .n, .h, .c]
  | .cpAR8 _ | .cpAN8 _ | .andAR8 _ | .andAN8 _ | .xorAR8 _ | .xorAN8 _ | .orAR8 _ | .orAN8 _ => [.z, .n, .h, .c]
  | .incR8 _ | .decR8 _ => [.z, .n, .h]
  | .daa => [.z, .h, .c]
  | .cpl => [.n, .h]
  | .scf | .ccf => [.n, .h, .c]
  | .addHlR16 _ => [.n, .h, .c]
  | .addSpE8 _ | .ldHlSpE8 _ => [.z, .n, .h, .c]
  | .rlca | .rrca | .rla | .rra => [.z, .n, .h, .c]
  | .rlcR8 _ | .rrcR8 _ | .rlR8 _ | .rrR8 _ | .slaR8 _ | .sraR8 _ | .srlR8 _ | .swapR8 _ => [.z, .n, .h, .c]
  | .bitBR8 _ _ => [.z, .n, .h]
  | .popR16Stk .af => [.z, .n, .h, .c]
  | .cbPrefix op2 =>
    match (fieldX op2).toNat with
    | 0 => [.z, .n, .h, .c]
    | 1 => [.z, .n, .h]
    | _ => []
  | _ => []

/-- The 8-bit registers other than F that an instruction writes (10_state.md rule R23). -/
def Instr.destRegs : Instr → List Reg8
  | .ldR8R8 dst _ => dst.regs
  | .ldR8N8 r _ | .incR8 r | .decR8 r => r.regs
  | .rlcR8 r | .rrcR8 r | .rlR8 r | .rrR8 r | .slaR8 r | .sraR8 r | .swapR8 r | .srlR8 r => r.regs
  | .resBR8 _ r | .setBR8 _ r => r.regs
  | .cbPrefix op2 => if (fieldX op2).toNat = 1 then [] else (R8.ofCode (fieldZ op2)).regs
  | .addAR8 _ | .addAN8 _ | .adcAR8 _ | .adcAN8 _ | .subAR8 _ | .subAN8 _ | .sbcAR8 _ | .sbcAN8 _ => [.a]
  | .andAR8 _ | .andAN8 _ | .xorAR8 _ | .xorAN8 _ | .orAR8 _ | .orAN8 _ => [.a]
  | .daa | .cpl | .rlca | .rrca | .rla | .rra => [.a]
  | .ldAA16 _ | .ldhAA8 _ | .ldhAC => [.a]
  | .ldAR16Mem m => .a :: m.regs
  | .ldR16MemA m => m.regs
  | .ldR16N16 r _ | .incR16 r | .decR16 r => r.regs
  | .addHlR16 _ | .ldHlSpE8 _ => [.h, .l]
  | .popR16Stk r => r.regs
  | _ => []

/-- Whether an instruction may write SP (10_state.md rule R23). -/
def Instr.writesSp : Instr → Bool
  | .ldR16N16 .sp _ | .incR16 .sp | .decR16 .sp => true
  | .pushR16Stk _ | .popR16Stk _ | .callA16 _ | .callCcA16 _ _ | .ret | .retCc _ | .reti | .rst _ => true
  | .addSpE8 _ | .ldSpHl => true
  | _ => false

/-- PC after an instruction, from the state its execution starts in, whose PC is the address of the next
sequential instruction: the table of 10_state.md rule R27. -/
def Instr.pcAfter (i : Instr) (s : State) : Word :=
  match i with
  | .jpA16 a | .callA16 a => a
  | .jpCcA16 cc a | .callCcA16 cc a => if cond cc s then a else s.pc
  | .jpHl => s.hl
  | .jrE8 e => s.pc + sext16 e
  | .jrCcE8 cc e => if cond cc s then s.pc + sext16 e else s.pc
  | .rst y => BitVec.ofNat 16 (8 * y.toNat)
  | .ret | .reti => s.readWord s.sp
  | .retCc cc => if cond cc s then s.readWord s.sp else s.pc
  | _ => s.pc

/-- The addresses of the bytes an instruction stores to, by the table of 20_memory.md rule R59. -/
def Instr.storedTo (i : Instr) (s : State) : List Word := (dataAccesses i s).flatMap Access.written

/-- The addresses of the data bytes an instruction reads, by the table of 20_memory.md rule R59. -/
def Instr.readsFrom (i : Instr) (s : State) : List Word := (dataAccesses i s).flatMap Access.observed

end Sys2Proof
end

