-- ==== Sys2Proof/Certificates/Slice0/Obligations.lean ====
section
/-! DEFINITION. The statements for the provers, by family of the opcode table. The first part holds the
vocabulary they share, written in numbers and masks so that it does not repeat the model's own
definitions. The opcode byte values in the rules cited are, by 30_encoding.md rule R98, general knowledge of
the spec (its K1, K3, K4); a clause that rests on one of the spec's decisions (D<n>) or on a log entry says so. -/

namespace Sys2Proof

open Sys2Proof.Machine

/-! ### Vocabulary -/

/-- F from its four flags by the masks of 10_state.md rule R29: 0x80, 0x40, 0x20, 0x10. -/
def flagByte (z n h c : Bool) : Byte :=
  (if z then 0x80#8 else 0#8) ||| (if n then 0x40#8 else 0#8) ||| (if h then 0x20#8 else 0#8) |||
    (if c then 0x10#8 else 0#8)

/-- The opcode byte alone is the instruction, one byte long. -/
def OneByte (op : Byte) (i : Instr) : Prop := ∀ b1 b2 : Byte, decodeRow op b1 b2 = (i, 1)

/-- The opcode byte takes one immediate byte. -/
def TwoBytes (op : Byte) (k : Byte → Instr) : Prop := ∀ b1 b2 : Byte, decodeRow op b1 b2 = (k b1, 2)

/-- The opcode byte takes a 16-bit immediate, low byte first. -/
def ThreeBytes (op : Byte) (k : Word → Instr) : Prop :=
  ∀ lo hi : Byte, decodeRow op lo hi = (k (BitVec.ofNat 16 (lo.toNat + 256 * hi.toNat)), 3)

/-- The byte 0xCB and then the second opcode byte are the instruction, two bytes long. -/
def CbBytes (op2 : Byte) (i : Instr) : Prop := ∀ b2 : Byte, decodeRow 0xCB#8 op2 b2 = (i, 2)

/-- The opcode byte `base + 8 * y + z` of two 3-bit fields. -/
def opAt (base y z : Nat) : Byte := BitVec.ofNat 8 (base + 8 * y + z)

/-- Everything but the 8-bit registers and memory is the same: SP, PC, the three control flags and the
fault status. -/
def SameControl (s t : State) : Prop :=
  t.sp = s.sp ∧ t.pc = s.pc ∧ t.ime = s.ime ∧ t.halted = s.halted ∧ t.lowPower = s.lowPower ∧ t.fault = s.fault

/-- What an instruction with the one destination `r` (and perhaps F) leaves: every other 8-bit register,
the control state, and every byte of memory but the one at HL when the destination is `[HL]`. -/
def FrameR8 (r : R8) (s t : State) : Prop :=
  (∀ q : Reg8, q ∉ r.regs → q ≠ Reg8.f → t.reg8 q = s.reg8 q) ∧ SameControl s t ∧
    ∀ x : Word, ¬(r = .hlInd ∧ x = s.hl) → t.readByte x = s.readByte x

/-- One byte is stored at `addr`, and every other byte of memory is as before. -/
def Stores1 (s t : State) (addr : Word) (v : Byte) : Prop :=
  t.readByte addr = v ∧ ∀ x : Word, x ≠ addr → t.readByte x = s.readByte x

/-- A word is stored at `addr`, low byte first, the second byte at `addr + 1` modulo 2^16, and every
other byte of memory is as before. -/
def Stores2 (s t : State) (addr w : Word) : Prop :=
  t.readByte addr = BitVec.ofNat 8 w.toNat ∧ t.readByte (addr + 1) = BitVec.ofNat 8 (w.toNat / 256) ∧
    ∀ x : Word, x ≠ addr → x ≠ addr + 1 → t.readByte x = s.readByte x

/-- `t` is `s` with the registers of `u`, but for memory: `u` says every field except memory. -/
def ButMemory (t u : State) : Prop := t = { u with mem := t.mem }

/-- A word as its two bytes in memory, low byte first. -/
def wordAt (s : State) (addr : Word) : Word :=
  BitVec.ofNat 16 ((s.readByte addr).toNat + 256 * (s.readByte (addr + 1)).toNat)

/-- An 8-bit result in A with the four flags, nothing else changed. -/
def withAF (s : State) (r : Byte) (z n h c : Bool) : State := { s with a := r, f := flagByte z n h c }

/-- A after an addition of `x` and a carry-in, with its flags, in unbounded numbers (40_alu8.md
rules R123 to R126). -/
def afterAdd (s : State) (x : Byte) (cin : Nat) : State :=
  withAF s (BitVec.ofNat 8 (s.a.toNat + x.toNat + cin))
    (decide ((s.a.toNat + x.toNat + cin) % 256 = 0)) false
    (decide (0xF < s.a.toNat % 16 + x.toNat % 16 + cin)) (decide (0xFF < s.a.toNat + x.toNat + cin))

/-- The difference of a subtraction modulo 256, kept in natural numbers. -/
def difference (a x cin : Nat) : Nat := (a + 512 - x - cin) % 256

/-- A after a subtraction of `x` and a borrow-in, with its flags (40_alu8.md rules R127 to R130). -/
def afterSub (s : State) (x : Byte) (cin : Nat) : State :=
  withAF s (BitVec.ofNat 8 (difference s.a.toNat x.toNat cin))
    (decide (difference s.a.toNat x.toNat cin = 0)) true
    (decide (s.a.toNat % 16 < x.toNat % 16 + cin)) (decide (s.a.toNat < x.toNat + cin))

/-- A compare: the flags of the subtraction, A as it was (40_alu8.md rules R137, R138). -/
def afterCp (s : State) (x : Byte) : State :=
  withAF s s.a (decide (s.a = x)) true (decide (s.a.toNat % 16 < x.toNat % 16)) (decide (s.a.toNat < x.toNat))

/-- The carry flag as a number. -/
def carryIn (s : State) : Nat := if s.flagC then 1 else 0

end Sys2Proof

open Sys2Proof Sys2Proof.Machine

/-! ### 8-bit arithmetic and logic -/

/-- ADD and ADC of an `r8` operand and of an immediate: the encoding, and that `exec` answers the state with
the sum in A, the four flags, and nothing else changed (40_alu8.md rules R123 to R126). -/
def Obligations.AddAndAdcResults : Prop :=
  ∀ s : State,
    (∀ r : R8, OneByte (opAt 0x80 0 r.code.toNat) (.addAR8 r) ∧ OneByte (opAt 0x88 0 r.code.toNat) (.adcAR8 r) ∧
      exec (.addAR8 r) s = .next (afterAdd s (readR8 r s) 0) ∧
      exec (.adcAR8 r) s = .next (afterAdd s (readR8 r s) (carryIn s))) ∧
    TwoBytes 0xC6#8 .addAN8 ∧ TwoBytes 0xCE#8 .adcAN8 ∧
    ∀ n8 : Byte, exec (.addAN8 n8) s = .next (afterAdd s n8 0) ∧
      exec (.adcAN8 n8) s = .next (afterAdd s n8 (carryIn s))

/-- SUB, SBC and CP of an `r8` operand and of an immediate (40_alu8.md rules R127 to R130, R137, R138). -/
def Obligations.SubSbcAndCpResults : Prop :=
  ∀ s : State,
    (∀ r : R8, OneByte (opAt 0x90 0 r.code.toNat) (.subAR8 r) ∧ OneByte (opAt 0x98 0 r.code.toNat) (.sbcAR8 r) ∧
      OneByte (opAt 0xB8 0 r.code.toNat) (.cpAR8 r) ∧
      exec (.subAR8 r) s = .next (afterSub s (readR8 r s) 0) ∧
      exec (.sbcAR8 r) s = .next (afterSub s (readR8 r s) (carryIn s)) ∧
      exec (.cpAR8 r) s = .next (afterCp s (readR8 r s))) ∧
    TwoBytes 0xD6#8 .subAN8 ∧ TwoBytes 0xDE#8 .sbcAN8 ∧ TwoBytes 0xFE#8 .cpAN8 ∧
    ∀ n8 : Byte, exec (.subAN8 n8) s = .next (afterSub s n8 0) ∧
      exec (.sbcAN8 n8) s = .next (afterSub s n8 (carryIn s)) ∧
      exec (.cpAN8 n8) s = .next (afterCp s n8)

/-- AND, XOR and OR: H is 1 for AND and 0 for the others, N and C are 0 (40_alu8.md rules R131 to R136). -/
def Obligations.AndXorOrResults : Prop :=
  ∀ s : State,
    (∀ r : R8, OneByte (opAt 0xA0 0 r.code.toNat) (.andAR8 r) ∧ OneByte (opAt 0xA8 0 r.code.toNat) (.xorAR8 r) ∧
      OneByte (opAt 0xB0 0 r.code.toNat) (.orAR8 r) ∧
      (let v := s.a &&& readR8 r s; exec (.andAR8 r) s = .next (withAF s v (decide (v.toNat = 0)) false true false)) ∧
      (let v := s.a ^^^ readR8 r s; exec (.xorAR8 r) s = .next (withAF s v (decide (v.toNat = 0)) false false false)) ∧
      (let v := s.a ||| readR8 r s; exec (.orAR8 r) s = .next (withAF s v (decide (v.toNat = 0)) false false false))) ∧
    TwoBytes 0xE6#8 .andAN8 ∧ TwoBytes 0xEE#8 .xorAN8 ∧ TwoBytes 0xF6#8 .orAN8 ∧
    ∀ n8 : Byte,
      (let v := s.a &&& n8; exec (.andAN8 n8) s = .next (withAF s v (decide (v.toNat = 0)) false true false)) ∧
      (let v := s.a ^^^ n8; exec (.xorAN8 n8) s = .next (withAF s v (decide (v.toNat = 0)) false false false)) ∧
      (let v := s.a ||| n8; exec (.orAN8 n8) s = .next (withAF s v (decide (v.toNat = 0)) false false false))

/-- INC r8, every operand form: the operand plus one modulo 256, Z from it, N = 0, H when the old low nibble
was 0xF, C kept, the frame, and INC [HL] reads then writes at HL (40_alu8.md rule R139). -/
def Obligations.IncR8Result : Prop :=
  ∀ (r : R8) (s : State),
    OneByte (opAt 0x04 r.code.toNat 0) (.incR8 r) ∧
    (dataAccesses (.incR8 .hlInd) s = [.readByte s.hl, .writeByte s.hl]) ∧
    ∃ t, exec (.incR8 r) s = .next t ∧
      readR8 r t = BitVec.ofNat 8 ((readR8 r s).toNat + 1) ∧
      t.getF = flagByte (decide ((readR8 r s).toNat = 0xFF)) false (decide ((readR8 r s).toNat % 16 = 0xF)) s.flagC ∧
      FrameR8 r s t

/-- DEC r8, every operand form. That N is 1 is the spec's own choice, marked there as its decision D7
(40_alu8.md section 6, 90_conflicts.md C4). -/
def Obligations.DecR8Result : Prop :=
  ∀ (r : R8) (s : State),
    OneByte (opAt 0x05 r.code.toNat 0) (.decR8 r) ∧
    ∃ t, exec (.decR8 r) s = .next t ∧
      readR8 r t = BitVec.ofNat 8 ((readR8 r s).toNat + 255) ∧
      t.getF = flagByte (decide ((readR8 r s).toNat = 1)) true (decide ((readR8 r s).toNat % 16 = 0)) s.flagC ∧
      FrameR8 r s t

/-- DAA by the algorithm the spec supplies from general knowledge (its decision D18, K5, K17; 40_alu8.md
section 7): the correction, in numbers, Z from the result, N kept, H cleared, C set or kept. -/
def Obligations.DaaResult : Prop :=
  OneByte 0x27#8 .daa ∧
  ∀ s : State,
    let a := s.a.toNat
    let low : Nat := if s.flagH = true ∨ (s.flagN = false ∧ 9 < a % 16) then 6 else 0
    let high : Nat := if s.flagC = true ∨ (s.flagN = false ∧ 0x99 < a) then 0x60 else 0
    let r : Byte := BitVec.ofNat 8 (if s.flagN then a + 256 - (high + low) else a + (high + low))
    exec .daa s = .next (withAF s r (decide (r.toNat = 0)) s.flagN false (decide (high ≠ 0)))

/-- Decimal addition and subtraction: for bytes that hold two decimal digits each, ADD or SUB and then DAA
leave the decimal sum or difference modulo 100 in A, with C the decimal carry or borrow. It rests on the
DAA algorithm of the spec's decision D18 (40_alu8.md section 7, 95_test_vectors.md S4). -/
def Obligations.DaaKeepsDecimal : Prop :=
  ∀ (s : State) (x1 x0 y1 y0 : Fin 10),
    let bcd (n : Nat) : Byte := BitVec.ofNat 8 (16 * (n / 10) + n % 10)
    let x := 10 * x1.val + x0.val
    let y := 10 * y1.val + y0.val
    s.a = bcd x →
      (∃ t u, exec (.addAN8 (bcd y)) s = .next t ∧ exec .daa t = .next u ∧
        u.a = bcd ((x + y) % 100) ∧ u.flagC = decide (100 ≤ x + y)) ∧
      (∃ t u, exec (.subAN8 (bcd y)) s = .next t ∧ exec .daa t = .next u ∧
        u.a = bcd ((x + 100 - y) % 100) ∧ u.flagC = decide (x < y))

/-- CPL, SCF and CCF (40_alu8.md rules R142, R143, R144). -/
def Obligations.CplScfCcfResults : Prop :=
  OneByte 0x2F#8 .cpl ∧ OneByte 0x37#8 .scf ∧ OneByte 0x3F#8 .ccf ∧
  ∀ s : State,
    exec .cpl s = .next (withAF s (s.a ^^^ 0xFF#8) s.flagZ true true s.flagC) ∧
    exec .scf s = .next (withAF s s.a s.flagZ false false true) ∧
    exec .ccf s = .next (withAF s s.a s.flagZ false false (!s.flagC))

/-! ### 16-bit arithmetic -/

/-- ADD HL,r16: the sum in HL modulo 65536, Z kept, N = 0, H the carry out of bit 11, C out of bit 15,
nothing else changed (41_alu16.md rule R150). -/
def Obligations.AddHlR16Result : Prop :=
  ∀ (r : R16) (s : State),
    OneByte (opAt 0x09 (2 * r.code.toNat) 0) (.addHlR16 r) ∧
    let sum := s.hl.toNat + (readR16 r s).toNat
    exec (.addHlR16 r) s = .next { s with
      h := BitVec.ofNat 8 (sum / 256)
      l := BitVec.ofNat 8 sum
      f := flagByte s.flagZ false (decide (0x0FFF < s.hl.toNat % 4096 + (readR16 r s).toNat % 4096))
        (decide (0xFFFF < sum)) }

/-- INC r16 and DEC r16 change the pair by one modulo 65536 and write no flag. The opcode bytes are the
spec's general knowledge (K1, decision D17; 41_alu16.md). -/
def Obligations.IncDecR16Results : Prop :=
  ∀ s : State,
    (∀ r : R16, OneByte (opAt 0x03 (2 * r.code.toNat) 0) (.incR16 r) ∧
      OneByte (opAt 0x0B (2 * r.code.toNat) 0) (.decR16 r)) ∧
    (let w := s.bc.toNat
     exec (.incR16 .bc) s = .next { s with b := .ofNat 8 ((w + 1) / 256), c := .ofNat 8 (w + 1) } ∧
     exec (.decR16 .bc) s = .next { s with b := .ofNat 8 ((w + 65535) / 256), c := .ofNat 8 (w + 65535) }) ∧
    (let w := s.de.toNat
     exec (.incR16 .de) s = .next { s with d := .ofNat 8 ((w + 1) / 256), e := .ofNat 8 (w + 1) } ∧
     exec (.decR16 .de) s = .next { s with d := .ofNat 8 ((w + 65535) / 256), e := .ofNat 8 (w + 65535) }) ∧
    (let w := s.hl.toNat
     exec (.incR16 .hl) s = .next { s with h := .ofNat 8 ((w + 1) / 256), l := .ofNat 8 (w + 1) } ∧
     exec (.decR16 .hl) s = .next { s with h := .ofNat 8 ((w + 65535) / 256), l := .ofNat 8 (w + 65535) }) ∧
    exec (.incR16 .sp) s = .next { s with sp := .ofNat 16 (s.sp.toNat + 1) } ∧
    exec (.decR16 .sp) s = .next { s with sp := .ofNat 16 (s.sp.toNat + 65535) }

/-- ADD SP,e8 and LD HL,SP+e8: SP plus the signed offset modulo 65536, Z = N = 0, H and C from the unsigned
addition of the low byte of SP and the raw offset byte. What the two compute is the spec's own choice
(decision D19, K7; 41_alu16.md, 45_load.md section 7, 90_conflicts.md C8). -/
def Obligations.SpPlusOffsetResults : Prop :=
  TwoBytes 0xE8#8 .addSpE8 ∧ TwoBytes 0xF8#8 .ldHlSpE8 ∧
  ∀ (e8 : Byte) (s : State),
    let sum := s.sp.toNat + (if e8.toNat < 128 then e8.toNat else 65536 + e8.toNat - 256)
    let f := flagByte false false (decide (0xF < s.sp.toNat % 16 + e8.toNat % 16))
      (decide (0xFF < s.sp.toNat % 256 + e8.toNat))
    exec (.addSpE8 e8) s = .next { s with sp := .ofNat 16 sum, f := f } ∧
    exec (.ldHlSpE8 e8) s = .next { s with h := .ofNat 8 (sum / 256), l := .ofNat 8 sum, f := f }

/-! ### Rotates, shifts and bits -/

/-- The eight operations in numbers: for the operand `v` and the old carry, the result and the carry-out. -/
def Sys2Proof.rotTable (y v cin : Nat) : Nat × Bool :=
  match y with
  | 0 => (2 * v % 256 + v / 128, decide (128 ≤ v))
  | 1 => (v / 2 + 128 * (v % 2), decide (v % 2 = 1))
  | 2 => (2 * v % 256 + cin, decide (128 ≤ v))
  | 3 => (v / 2 + 128 * cin, decide (v % 2 = 1))
  | 4 => (2 * v % 256, decide (128 ≤ v))
  | 5 => (v / 2 + (if 128 ≤ v then 128 else 0), decide (v % 2 = 1))
  | 6 => (16 * (v % 16) + v / 16, false)
  | _ => (v / 2, decide (v % 2 = 1))

/-- RLCA, RRCA, RLA, RRA: the operation on A, carry-out from the operand before it, Z, N and H cleared. The
carry-outs are the spec's own table (decisions D8, D32, K6; 42_rotate_bit.md sections 1, 2). -/
def Obligations.AccumulatorRotateResults : Prop :=
  OneByte 0x07#8 .rlca ∧ OneByte 0x0F#8 .rrca ∧ OneByte 0x17#8 .rla ∧ OneByte 0x1F#8 .rra ∧
  ∀ s : State,
    let after (y : Nat) : State :=
      let o := rotTable y s.a.toNat (carryIn s)
      withAF s (BitVec.ofNat 8 o.1) false false false o.2
    exec .rlca s = .next (after 0) ∧ exec .rrca s = .next (after 1) ∧
    exec .rla s = .next (after 2) ∧ exec .rra s = .next (after 3)

/-- RLC, RRC, RL, RR, SLA, SRA, SWAP, SRL on every operand form: the result, Z from it, N = H = 0, C the
carry-out, and the frame. The table is the spec's own (decisions D8, D32, K6; 42_rotate_bit.md sections 1,
3). -/
def Obligations.RotateShiftSwapResults : Prop :=
  ∀ (r : R8) (s : State),
    let ok (y : Nat) (i : Instr) : Prop :=
      CbBytes (opAt 0 y r.code.toNat) i ∧
      ∃ t, exec i s = .next t ∧
        readR8 r t = BitVec.ofNat 8 (rotTable y (readR8 r s).toNat (carryIn s)).1 ∧
        t.getF = flagByte (decide ((rotTable y (readR8 r s).toNat (carryIn s)).1 = 0)) false false
          (rotTable y (readR8 r s).toNat (carryIn s)).2 ∧
        FrameR8 r s t
    ok 0 (.rlcR8 r) ∧ ok 1 (.rrcR8 r) ∧ ok 2 (.rlR8 r) ∧ ok 3 (.rrR8 r) ∧ ok 4 (.slaR8 r) ∧
      ok 5 (.sraR8 r) ∧ ok 6 (.swapR8 r) ∧ ok 7 (.srlR8 r)

/-- BIT b,r8: Z the complement of bit `b`, N = 0, H = 1, C kept, no write-back
(42_rotate_bit.md rule R173). -/
def Obligations.BitTestResult : Prop :=
  ∀ (b : BitVec 3) (r : R8) (s : State),
    CbBytes (opAt 0x40 b.toNat r.code.toNat) (.bitBR8 b r) ∧
    exec (.bitBR8 b r) s =
      .next { s with f := flagByte (decide ((readR8 r s).toNat / 2 ^ b.toNat % 2 = 0)) false true s.flagC } ∧
    dataAccesses (.bitBR8 b .hlInd) s = [.readByte s.hl]

/-- RES and SET: bit `b` becomes 0 or 1, the other seven bits keep their values, F as it was, and the frame;
the memory form reads then writes at HL (42_rotate_bit.md rules R174, R175). -/
def Obligations.ResSetResults : Prop :=
  ∀ (b : BitVec 3) (r : R8) (s : State),
    CbBytes (opAt 0x80 b.toNat r.code.toNat) (.resBR8 b r) ∧
    CbBytes (opAt 0xC0 b.toNat r.code.toNat) (.setBR8 b r) ∧
    dataAccesses (.resBR8 b .hlInd) s = [.readByte s.hl, .writeByte s.hl] ∧
    dataAccesses (.setBR8 b .hlInd) s = [.readByte s.hl, .writeByte s.hl] ∧
    (∃ t, exec (.resBR8 b r) s = .next t ∧
      (∀ k < 8, (readR8 r t).getLsbD k = if k = b.toNat then false else (readR8 r s).getLsbD k) ∧
      t.getF = s.getF ∧ FrameR8 r s t) ∧
    ∃ t, exec (.setBR8 b r) s = .next t ∧
      (∀ k < 8, (readR8 r t).getLsbD k = if k = b.toNat then true else (readR8 r s).getLsbD k) ∧
      t.getF = s.getF ∧ FrameR8 r s t

/-! ### Control flow -/

/-- The conditions by their codes and where the code stands in the opcode; a taken conditional does what the
unconditional form does and one not taken nothing; the fetch does not depend on the flags. The opcode bytes
are the spec's own map (decision D17, K1, log entry 11; 43_control_flow.md sections 1 to 4). -/
def Obligations.ConditionTable : Prop :=
  (∀ v : BitVec 2, ThreeBytes (opAt 0xC2 v.toNat 0) (.jpCcA16 (.ofCode v)) ∧
    ThreeBytes (opAt 0xC4 v.toNat 0) (.callCcA16 (.ofCode v)) ∧ OneByte (opAt 0xC0 v.toNat 0) (.retCc (.ofCode v)) ∧
    TwoBytes (opAt 0x20 v.toNat 0) (.jrCcE8 (.ofCode v))) ∧
  ∀ s : State,
    cond (.ofCode 0b00#2) s = !s.flag .z ∧ cond (.ofCode 0b01#2) s = s.flag .z ∧
    cond (.ofCode 0b10#2) s = !s.flag .c ∧ cond (.ofCode 0b11#2) s = s.flag .c ∧
    (∀ v : Byte, fetchAccesses (s.setF v) = fetchAccesses s ∧ (s.setF v).fetched = s.fetched) ∧
    ∀ (cc : Cond) (a16 : Word) (e8 : Byte),
      exec (.jpCcA16 cc a16) s = (if cond cc s then exec (.jpA16 a16) s else .next s) ∧
      exec (.callCcA16 cc a16) s = (if cond cc s then exec (.callA16 a16) s else .next s) ∧
      exec (.jrCcE8 cc e8) s = (if cond cc s then exec (.jrE8 e8) s else .next s) ∧
      exec (.retCc cc) s = (if cond cc s then exec .ret s else .next s)

/-- JP a16 and JP cc,a16: PC becomes the target, or stays past the instruction when not taken; nothing else
changes (43_control_flow.md rules R181, R182). -/
def Obligations.JpResults : Prop :=
  ThreeBytes 0xC3#8 .jpA16 ∧ (∀ cc : Cond, ThreeBytes (opAt 0xC2 cc.code.toNat 0) (.jpCcA16 cc)) ∧
  ∀ (cc : Cond) (a16 : Word) (s : State),
    exec (.jpA16 a16) s = .next { s with pc := a16 } ∧
    (cond cc s = true → exec (.jpCcA16 cc a16) s = .next { s with pc := a16 }) ∧
    (cond cc s = false → exec (.jpCcA16 cc a16) s = .next s)

/-- JR e8 and JR cc,e8: the offset is signed and added to the PC past the instruction, modulo 65536
(43_control_flow.md rules R184, R185). -/
def Obligations.JrResults : Prop :=
  TwoBytes 0x18#8 .jrE8 ∧ (∀ cc : Cond, TwoBytes (opAt 0x20 cc.code.toNat 0) (.jrCcE8 cc)) ∧
  ∀ (cc : Cond) (e8 : Byte) (s : State),
    let target : Word := .ofNat 16 (s.pc.toNat + (if e8.toNat < 128 then e8.toNat else 65536 + e8.toNat - 256))
    exec (.jrE8 e8) s = .next { s with pc := target } ∧
    (cond cc s = true → exec (.jrCcE8 cc e8) s = .next { s with pc := target }) ∧
    (cond cc s = false → exec (.jrCcE8 cc e8) s = .next s)

/-- JP HL assigns PC from HL, RST y pushes the return address and goes to `8 * y`, and RETI is RET with IME set
to 1 and nothing else restored. The byte 0xE9, the factor 8 and the write of IME are the spec's own (K16, K8;
decisions D17, D26, D6; 43_control_flow.md). -/
def Obligations.JpHlRstAndRetiResults : Prop :=
  OneByte 0xE9#8 .jpHl ∧ (∀ y : BitVec 3, OneByte (opAt 0xC7 y.toNat 0) (.rst y)) ∧ OneByte 0xD9#8 .reti ∧
  ∀ (y : BitVec 3) (s : State),
    exec .jpHl s = .next { s with pc := .ofNat 16 (256 * s.h.toNat + s.l.toNat) } ∧
    (∃ t, exec (.rst y) s = .next t ∧
      ButMemory t { s with sp := s.sp - 2, pc := .ofNat 16 (8 * y.toNat) } ∧ Stores2 s t (s.sp - 2) s.pc) ∧
    exec .reti s = .next { s with pc := wordAt s s.sp, sp := s.sp + 2, ime := true }

/-- CALL a16 and CALL cc,a16: SP down by two, the return address stored there, PC the target; not taken,
nothing changes. The direction of the stack is the spec's own choice (decision D5, 90_conflicts.md C1;
43_control_flow.md section 3). -/
def Obligations.CallResults : Prop :=
  ThreeBytes 0xCD#8 .callA16 ∧ (∀ cc : Cond, ThreeBytes (opAt 0xC4 cc.code.toNat 0) (.callCcA16 cc)) ∧
  ∀ (cc : Cond) (a16 : Word) (s : State),
    let called (t : State) : Prop := ButMemory t { s with sp := s.sp - 2, pc := a16 } ∧ Stores2 s t (s.sp - 2) s.pc
    (∃ t, exec (.callA16 a16) s = .next t ∧ called t) ∧
    (cond cc s = true → ∃ t, exec (.callCcA16 cc a16) s = .next t ∧ called t) ∧
    (cond cc s = false → exec (.callCcA16 cc a16) s = .next s)

/-- RET and RET cc: PC is the word at SP, low byte first, SP up by two, memory as it was
(43_control_flow.md rules R188, R189). -/
def Obligations.RetResults : Prop :=
  OneByte 0xC9#8 .ret ∧ (∀ cc : Cond, OneByte (opAt 0xC0 cc.code.toNat 0) (.retCc cc)) ∧
  ∀ (cc : Cond) (s : State),
    exec .ret s = .next { s with pc := wordAt s s.sp, sp := s.sp + 2 } ∧
    (cond cc s = true → exec (.retCc cc) s = .next { s with pc := wordAt s s.sp, sp := s.sp + 2 }) ∧
    (cond cc s = false → exec (.retCc cc) s = .next s ∧ dataAccesses (.retCc cc) s = [])

/-! ### The stack -/

/-- The stack primitives: Push16 decrements SP by two and stores the word there; Pop16 reads the word at SP
and increments SP by two, leaving memory as it was. PUSH, CALL, RST, POP, RET and RETI all go through them,
with one word access each. That CALL, RST and the returns use this direction is the spec's decision D5, RST's
target D26 and K8, RETI's write of IME D6 (log entry 11; 44_stack.md section 1, 43_control_flow.md sections 3
to 5). -/
def Obligations.StackPrimitives : Prop :=
  ∀ (s : State) (v : Word),
    ButMemory (s.push16 v) { s with sp := s.sp - 2 } ∧ Stores2 s (s.push16 v) (s.sp - 2) v ∧
    s.top16 = wordAt s s.sp ∧ s.drop16 = { s with sp := s.sp + 2 } ∧
    (∀ (r : R16Stk) (cc : Cond) (a16 : Word) (y : BitVec 3),
      exec (.pushR16Stk r) s = .next (s.push16 (readR16Stk r s)) ∧
      exec (.callA16 a16) s = .next ((s.push16 s.pc).setPc a16) ∧
      exec (.callCcA16 cc a16) s = .next (if cond cc s then (s.push16 s.pc).setPc a16 else s) ∧
      exec (.rst y) s = .next ((s.push16 s.pc).setPc (rstTarget y)) ∧
      exec (.popR16Stk r) s = .next (writeR16Stk r s.top16 s.drop16) ∧
      exec .ret s = .next (s.drop16.setPc s.top16) ∧
      exec (.retCc cc) s = .next (if cond cc s then s.drop16.setPc s.top16 else s) ∧
      exec .reti s = .next ((s.drop16.setPc s.top16).setIme true)) ∧
    (∀ (r : R16Stk) (y : BitVec 3), dataAccesses (.pushR16Stk r) s = [.writeWord (s.sp - 2)] ∧
      dataAccesses (.callA16 v) s = [.writeWord (s.sp - 2)] ∧ dataAccesses (.rst y) s = [.writeWord (s.sp - 2)] ∧
      dataAccesses (.popR16Stk r) s = [.readWord s.sp]) ∧
    dataAccesses .ret s = [.readWord s.sp] ∧ dataAccesses .reti s = [.readWord s.sp]

/-- PUSH and POP of every pair, with POP AF masking the low nibble of F. Pair order and mask are the spec's
own choices (decisions D20, D24), the opcode bytes its general knowledge (K1; 44_stack.md section 2). -/
def Obligations.PushPopResults : Prop :=
  (∀ r : R16Stk, OneByte (opAt 0xC5 (2 * r.code.toNat) 0) (.pushR16Stk r) ∧
    OneByte (opAt 0xC1 (2 * r.code.toNat) 0) (.popR16Stk r)) ∧
  ∀ s : State,
    (∀ r : R16Stk, ∃ t, exec (.pushR16Stk r) s = .next t ∧ ButMemory t { s with sp := s.sp - 2 } ∧
      Stores2 s t (s.sp - 2) (readR16Stk r s)) ∧
    (let lo := s.readByte s.sp
     let hi := s.readByte (s.sp + 1)
     exec (.popR16Stk .bc) s = .next { s with b := hi, c := lo, sp := s.sp + 2 } ∧
     exec (.popR16Stk .de) s = .next { s with d := hi, e := lo, sp := s.sp + 2 } ∧
     exec (.popR16Stk .hl) s = .next { s with h := hi, l := lo, sp := s.sp + 2 } ∧
     exec (.popR16Stk .af) s = .next { s with a := hi, f := .ofNat 8 (lo.toNat / 16 * 16), sp := s.sp + 2 })

/-- The stack round trips: a pair pushed and popped comes back with SP restored, for every pair and across
pairs, and a call followed at once by a return comes back to the instruction after it. It rests on the
spec's stack decisions (D3, D5; 44_stack.md section 3). -/
def Obligations.StackRoundTrips : Prop :=
  (∀ (r q : R16Stk) (s t : State), exec (.pushR16Stk r) s = .next t →
    ∃ u, exec (.popR16Stk q) t = .next u ∧ u.sp = s.sp ∧
      readR16Stk q u = (if q = .af then readR16Stk r s &&& 0xFFF0#16 else readR16Stk r s)) ∧
  (∀ (a16 : Word) (s t : State), exec (.callA16 a16) s = .next t →
    ∃ u, exec .ret t = .next u ∧ u.sp = s.sp ∧ u.pc = s.pc) ∧
  (∀ (y : BitVec 3) (s t : State), exec (.rst y) s = .next t →
    ∃ u, exec .ret t = .next u ∧ u.sp = s.sp ∧ u.pc = s.pc)

/-! ### Loads and stores -/

/-- The `r8` operand table, read and written, by index, and the encodings that use it: field `z` of LD r8,r8, of
the eight ALU operations and of every prefixed instruction, field `y` of LD r8,r8, LD r8,n8, INC and DEC. The
opcode bytes, the order of the ALU operations and the prefixed space are the spec's own map (decision D17, K1,
K3, K4, log entry 11; 30_encoding.md sections 2, 3, 5). -/
def Obligations.R8OperandTable : Prop :=
  (∀ i k : BitVec 3,
    (¬(i = 6 ∧ k = 6) → OneByte (opAt 0x40 i.toNat k.toNat) (.ldR8R8 (.ofCode i) (.ofCode k))) ∧
    TwoBytes (opAt 0x06 i.toNat 0) (.ldR8N8 (.ofCode i)) ∧ OneByte (opAt 0x04 i.toNat 0) (.incR8 (.ofCode i)) ∧
    OneByte (opAt 0x05 i.toNat 0) (.decR8 (.ofCode i)) ∧
    OneByte (opAt 0x80 0 k.toNat) (.addAR8 (.ofCode k)) ∧ OneByte (opAt 0x80 1 k.toNat) (.adcAR8 (.ofCode k)) ∧
    OneByte (opAt 0x80 2 k.toNat) (.subAR8 (.ofCode k)) ∧ OneByte (opAt 0x80 3 k.toNat) (.sbcAR8 (.ofCode k)) ∧
    OneByte (opAt 0x80 4 k.toNat) (.andAR8 (.ofCode k)) ∧ OneByte (opAt 0x80 5 k.toNat) (.xorAR8 (.ofCode k)) ∧
    OneByte (opAt 0x80 6 k.toNat) (.orAR8 (.ofCode k)) ∧ OneByte (opAt 0x80 7 k.toNat) (.cpAR8 (.ofCode k)) ∧
    CbBytes (opAt 0x00 0 k.toNat) (.rlcR8 (.ofCode k)) ∧ CbBytes (opAt 0x00 1 k.toNat) (.rrcR8 (.ofCode k)) ∧
    CbBytes (opAt 0x00 2 k.toNat) (.rlR8 (.ofCode k)) ∧ CbBytes (opAt 0x00 3 k.toNat) (.rrR8 (.ofCode k)) ∧
    CbBytes (opAt 0x00 4 k.toNat) (.slaR8 (.ofCode k)) ∧ CbBytes (opAt 0x00 5 k.toNat) (.sraR8 (.ofCode k)) ∧
    CbBytes (opAt 0x00 6 k.toNat) (.swapR8 (.ofCode k)) ∧ CbBytes (opAt 0x00 7 k.toNat) (.srlR8 (.ofCode k)) ∧
    CbBytes (opAt 0x40 i.toNat k.toNat) (.bitBR8 i (.ofCode k)) ∧
    CbBytes (opAt 0x80 i.toNat k.toNat) (.resBR8 i (.ofCode k)) ∧
    CbBytes (opAt 0xC0 i.toNat k.toNat) (.setBR8 i (.ofCode k))) ∧
  ∀ (s : State) (v : Byte),
    readR8 (.ofCode 0) s = s.b ∧ readR8 (.ofCode 1) s = s.c ∧ readR8 (.ofCode 2) s = s.d ∧
    readR8 (.ofCode 3) s = s.e ∧ readR8 (.ofCode 4) s = s.h ∧ readR8 (.ofCode 5) s = s.l ∧
    readR8 (.ofCode 6) s = s.readByte s.hl ∧ readR8 (.ofCode 7) s = s.a ∧
    writeR8 (.ofCode 0) v s = { s with b := v } ∧ writeR8 (.ofCode 1) v s = { s with c := v } ∧
    writeR8 (.ofCode 2) v s = { s with d := v } ∧ writeR8 (.ofCode 3) v s = { s with e := v } ∧
    writeR8 (.ofCode 4) v s = { s with h := v } ∧ writeR8 (.ofCode 5) v s = { s with l := v } ∧
    (ButMemory (writeR8 (.ofCode 6) v s) s ∧ Stores1 s (writeR8 (.ofCode 6) v s) s.hl v) ∧
    writeR8 (.ofCode 7) v s = { s with a := v }

/-- LD r8,r8 in every form the spec gives it (0x76 is HALT): the source read at the old HL, then the
destination written, with the accesses at HL; a load of a register from itself changes nothing; no flag,
and the frame (45_load.md rule R211). -/
def Obligations.LdR8R8Result : Prop :=
  OneByte 0x76#8 .halt ∧ ∀ (dst src : R8) (s : State), ¬(dst = .hlInd ∧ src = .hlInd) →
    OneByte (opAt 0x40 dst.code.toNat src.code.toNat) (.ldR8R8 dst src) ∧
    dataAccesses (.ldR8R8 dst src) s =
      (if src = .hlInd then [.readByte s.hl] else []) ++ (if dst = .hlInd then [.writeByte s.hl] else []) ∧
    (dst = src → exec (.ldR8R8 dst src) s = .next s) ∧
    ∃ t, exec (.ldR8R8 dst src) s = .next t ∧ readR8 dst t = readR8 src s ∧ t.getF = s.getF ∧ FrameR8 dst s t

/-- LD r8,n8: the immediate written, no read of the old byte, no flag, and the frame. LD r16,n16: the pair
written and nothing else, its operand bytes wrapping from 0xFFFF to 0x0000 (45_load.md rules R212,
R213). -/
def Obligations.LdImmediateResults : Prop :=
  (∀ r : R8, TwoBytes (opAt 0x06 r.code.toNat 0) (.ldR8N8 r)) ∧
  (∀ r : R16, ThreeBytes (opAt 0x01 (2 * r.code.toNat) 0) (.ldR16N16 r)) ∧
  ∀ (n8 : Byte) (n16 : Word) (s : State),
    (∀ r : R8, ∃ t, exec (.ldR8N8 r n8) s = .next t ∧ readR8 r t = n8 ∧ t.getF = s.getF ∧ FrameR8 r s t) ∧
    dataAccesses (.ldR8N8 .hlInd n8) s = [.writeByte s.hl] ∧
    (let hi : Byte := .ofNat 8 (n16.toNat / 256)
     let lo : Byte := .ofNat 8 n16.toNat
     exec (.ldR16N16 .bc n16) s = .next { s with b := hi, c := lo } ∧
     exec (.ldR16N16 .de n16) s = .next { s with d := hi, e := lo } ∧
     exec (.ldR16N16 .hl n16) s = .next { s with h := hi, l := lo } ∧
     exec (.ldR16N16 .sp n16) s = .next { s with sp := n16 }) ∧
    (s.setPc 0xFFFF#16).fetched = decodeRow (s.readByte 0xFFFF#16) (s.readByte 0x0000#16) (s.readByte 0x0001#16)

/-- LD [r16mem],A and LD A,[r16mem]: the access is at BC, DE or the old HL; HL then goes up or down by one
modulo 65536 in the auto-index forms. Direction and timing are the spec's own choices (decisions D27, D28,
K9; 45_load.md section 4). -/
def Obligations.IndirectLoadResults : Prop :=
  (∀ m : R16Mem, OneByte (opAt 0x02 (2 * m.code.toNat) 0) (.ldR16MemA m) ∧
    OneByte (opAt 0x0A (2 * m.code.toNat) 0) (.ldAR16Mem m)) ∧
  ∀ s : State,
    let moved (w : Nat) (u : State) : State := { u with h := .ofNat 8 (w / 256), l := .ofNat 8 w }
    let stores (m : R16Mem) (addr : Word) (u : State) : Prop :=
      ∃ t, exec (.ldR16MemA m) s = .next t ∧ ButMemory t u ∧ Stores1 s t addr s.a
    stores .bc s.bc s ∧ stores .de s.de s ∧
    stores .hlInc s.hl (moved (s.hl.toNat + 1) s) ∧ stores .hlDec s.hl (moved (s.hl.toNat + 65535) s) ∧
    exec (.ldAR16Mem .bc) s = .next { s with a := s.readByte s.bc } ∧
    exec (.ldAR16Mem .de) s = .next { s with a := s.readByte s.de } ∧
    exec (.ldAR16Mem .hlInc) s = .next (moved (s.hl.toNat + 1) { s with a := s.readByte s.hl }) ∧
    exec (.ldAR16Mem .hlDec) s = .next (moved (s.hl.toNat + 65535) { s with a := s.readByte s.hl })

/-- LD [a16],SP, LD [a16],A, LD A,[a16] and LD SP,HL. Bytes and operands are the spec's general knowledge
(K1, K16; decision D17; 45_load.md sections 5, 7). -/
def Obligations.AbsoluteLoadResults : Prop :=
  ThreeBytes 0x08#8 .ldA16Sp ∧ ThreeBytes 0xEA#8 .ldA16A ∧ ThreeBytes 0xFA#8 .ldAA16 ∧ OneByte 0xF9#8 .ldSpHl ∧
  ∀ (a16 : Word) (s : State),
    (∃ t, exec (.ldA16Sp a16) s = .next t ∧ ButMemory t s ∧ Stores2 s t a16 s.sp) ∧
    (∃ t, exec (.ldA16A a16) s = .next t ∧ ButMemory t s ∧ Stores1 s t a16 s.a) ∧
    exec (.ldAA16 a16) s = .next { s with a := s.readByte a16 } ∧
    exec .ldSpHl s = .next { s with sp := .ofNat 16 (256 * s.h.toNat + s.l.toNat) }

/-- The four LDH forms at 0xFF00 plus the unsigned offset. Bytes and operands are the spec's general
knowledge (K1, K19; decision D17; 45_load.md section 6). -/
def Obligations.IoPageLoadResults : Prop :=
  TwoBytes 0xE0#8 .ldhA8A ∧ TwoBytes 0xF0#8 .ldhAA8 ∧ OneByte 0xE2#8 .ldhCA ∧ OneByte 0xF2#8 .ldhAC ∧
  ∀ (a8 : Byte) (s : State),
    let io (v : Byte) : Word := .ofNat 16 (0xFF00 + v.toNat)
    (∃ t, exec (.ldhA8A a8) s = .next t ∧ ButMemory t s ∧ Stores1 s t (io a8) s.a) ∧
    exec (.ldhAA8 a8) s = .next { s with a := s.readByte (io a8) } ∧
    (∃ t, exec .ldhCA s = .next t ∧ ButMemory t s ∧ Stores1 s t (io s.c) s.a) ∧
    exec .ldhAC s = .next { s with a := s.readByte (io s.c) }

/-! ### Miscellaneous instructions, the prefix and the illegal bytes -/

/-- NOP, STOP, HALT, DI and EI, each one byte. STOP's length and the immediate effect of DI and EI are the
spec's own choices (decisions D9, D14), the bytes its general knowledge (K1; 46_misc.md). -/
def Obligations.MiscResults : Prop :=
  OneByte 0x00#8 .nop ∧ OneByte 0x10#8 .stop ∧ OneByte 0x76#8 .halt ∧ OneByte 0xF3#8 .di ∧ OneByte 0xFB#8 .ei ∧
  ∀ s : State,
    exec .nop s = .next s ∧ exec .stop s = .next { s with lowPower := true } ∧
    exec .halt s = .next { s with halted := true } ∧ exec .di s = .next { s with ime := false } ∧
    exec .ei s = .next { s with ime := true }

/-- PREFIX has no effect of its own: with any second byte it completes, with exactly the effect of the
CB-space entry that the two bytes decode to (46_misc.md; the record is the model's, log
entry 5). -/
def Obligations.PrefixRunsItsEntry : Prop :=
  ∀ (op2 b2 : Byte) (s : State),
    (decodeRow 0xCB#8 op2 b2).2 = 2 ∧ (decodeRow 0xCB#8 op2 b2).1.wellFormed = true ∧
    ∃ t, exec (.cbPrefix op2) s = .next t ∧ exec (decodeRow 0xCB#8 op2 b2).1 s = .next t

/-- The eleven illegal bytes. -/
def Sys2Proof.illegalBytes : List Byte :=
  [0xD3#8, 0xDB#8, 0xDD#8, 0xE3#8, 0xE4#8, 0xEB#8, 0xEC#8, 0xED#8, 0xF4#8, 0xFC#8, 0xFD#8]

/-- A running core that fetches an illegal byte faults with IllegalOpcode(byte, pc0), PC past the byte, the
fault status set and nothing else changed; each illegal tag stops `exec` so. The terminal fault is the
spec's own choice (decision D12; 46_misc.md, 60_exceptions.md section 1), the state it carries the model's
form of it (log entry 4). -/
def Obligations.IllegalBytesFault : Prop :=
  (∀ s : State, s.Running → s.readByte s.pc ∈ illegalBytes →
    step s = .fault (.illegalOpcode (s.readByte s.pc) s.pc
      { s with pc := s.pc + 1, fault := some (.illegalOpcode (s.readByte s.pc) s.pc) })) ∧
  ∀ (i : Instr) (byte : Byte) (s : State), i.illegalByte? = some byte →
    exec i s = .fault (.illegalOpcode byte (s.pc - 1)
      { s with fault := some (.illegalOpcode byte (s.pc - 1)) })

/-! ### The step, the hold, the fault and the ports -/

/-- A step runs the decoded instruction: when the bytes at PC decode to a well-formed instruction, the step
of a running core is `exec` of it with PC moved past the bytes it takes (60_exceptions.md section 6). -/
def Obligations.StepRunsDecoded : Prop :=
  ∀ (s : State) (i : Instr) (rest : List Byte), s.Running →
    decode [s.readByte s.pc, s.readByte (s.pc + 1), s.readByte (s.pc + 2)] = .ok (i, rest) →
    step s = exec i { s with pc := s.pc + BitVec.ofNat 16 (3 - rest.length) }

/-- A held core: the outcome of step and execute is `Held`, on every bus; they change nothing and make no bus
access, whatever IME is, and the core runs on only after the driver clears the flag, at the PC it was left
with. That STOP holds like HALT is the spec's own choice (decision D10); the host's `step` shows `Held` as the
same state (log entry 3). -/
def Obligations.HoldChangesNothing : Prop :=
  ∀ s : State, s.fault = none → (s.halted = true ∨ s.lowPower = true) →
    stepOutcome s = .held ∧ (∀ i : Instr, executeOutcome i s = .held) ∧
    (∀ (M : Type) (bus : Bus M) (m : M), stepOn bus s m = .held ∧ ∀ i : Instr, executeOn bus i s m = .held) ∧
    step s = .next s ∧ (∀ i : Instr, executePort i s = .next s) ∧ stepAccesses s = [] ∧
    (∀ v : Bool, step (s.setIme v) = .next (s.setIme v)) ∧
    (let t := drive .clearLowPower (drive .clearHalted s)
     t = { s with halted := false, lowPower := false } ∧ t.Running ∧ step t = exec t.fetched.1 t.afterFetch)

/-- A fault is sticky: every step and every execute of a faulted core answers the same fault with the state
unchanged, on every bus with the bus unchanged, and makes no bus access; a run that stands there has ended
faulted, whatever the hold flags are; every driver action but a reset leaves the fault status; a reset clears
it. The form of the outcome is the model's (log entry 4; 60_exceptions.md section 3, decision D12). -/
def Obligations.FaultIsSticky : Prop :=
  ∀ (s : State) (r : FaultStatus), s.fault = some r →
    stepOutcome s = .fault r s ∧ (∀ i : Instr, executeOutcome i s = .fault r s) ∧
    (∀ (M : Type) (bus : Bus M) (m : M),
      stepOn bus s m = .fault r (s.bare, m) ∧ ∀ i : Instr, executeOn bus i s m = .fault r (s.bare, m)) ∧
    (∀ n : Nat, runFor n s = .faulted (r.report s)) ∧
    step s = .fault (r.report s) ∧ (∀ i : Instr, executePort i s = .fault (r.report s)) ∧
    (r.report s).after = s ∧ stepAccesses s = [] ∧
    (∀ act : DriverAction, act ≠ .reset → (drive act s).fault = some r) ∧ (drive .reset s).fault = none

/-- A running core's step answers a next state unless the byte at PC is one of the eleven, and then it faults;
it is never refused and never `Held`, and the three-way outcome is `Next` and `Fault` exactly where the host's
is. So a step can raise only IllegalOpcode, decided by the opcode byte alone, and execute only
IllegalInstruction, exactly on the ill-formed records (60_exceptions.md sections 1, 6; decision D23). -/
def Obligations.OnlyTheSpecsFaults : Prop :=
  ∀ s : State, s.Running →
    ((∃ t, step s = .next t) ↔ s.readByte s.pc ∉ illegalBytes) ∧
    (∀ ρ : Refusal, step s ≠ .refused ρ ∧ stepOutcome s ≠ .unmodelled ρ) ∧ stepOutcome s ≠ .held ∧
    (∀ t, stepOutcome s = .next t ↔ step s = .next t) ∧
    (∀ r t, stepOutcome s = .fault r t ↔ step s = .fault (r.report t)) ∧
    (∀ i : Instr, i.wellFormed = true → executePort i s = exec i s ∧ ∃ t, executePort i s = .next t) ∧
    ∀ i : Instr, i.wellFormed = false →
      executePort i s = .fault (.illegalInstruction i { s with fault := some (.illegalInstruction i) })

/-- Reset gives every piece of state its reset value: registers, SP and PC zero, the three control flags 0, no
fault; as a driver action too, from any state (70_reset_and_hazards.md section 1). The reset values of IME, `halted`,
`low_power` and the fault status are the spec's own choice (decision D11, log entry 11). -/
def Obligations.ResetValues : Prop :=
  ∀ s t : State, (t = State.reset ∨ t = drive .reset s) →
    (∀ q : Reg8, t.reg8 q = 0#8) ∧ t.f = 0#8 ∧ t.sp = 0#16 ∧ t.pc = 0#16 ∧ t.ime = false ∧ t.halted = false ∧
      t.lowPower = false ∧ t.fault = none

/-- The first step after a reset fetches from 0x0000 whatever memory holds, and a reset leaves memory as it
is. That memory is a parameter is the spec's own choice (decision D25; 70_reset_and_hazards.md). -/
def Obligations.FirstStepFetchesAtZero : Prop :=
  ∀ s : State,
    let t := drive .reset s
    (∀ x : Word, t.readByte x = s.readByte x) ∧ t = State.launch s.mem ∧
    (stepAccesses t).head? = some (.readByte 0x0000#16) ∧
    step t = exec (decodeRow (s.readByte 0) (s.readByte 1) (s.readByte 2)).1
      (t.setPc (BitVec.ofNat 16 (decodeRow (s.readByte 0) (s.readByte 1) (s.readByte 2)).2))

/-- What the driver may do leaves the general registers, F, SP and PC alone: writing memory changes that one
byte, and clearing a hold or setting IME changes that one flag. That it may write these flags is the spec's
own choice (decision D22; 60_exceptions.md section 6). -/
def Obligations.DriverRights : Prop :=
  ∀ (s : State) (x : Word) (v : Byte) (b : Bool),
    ButMemory (drive (.writeMemory x v) s) s ∧ Stores1 s (drive (.writeMemory x v) s) x v ∧
    drive .clearHalted s = { s with halted := false } ∧ drive .clearLowPower s = { s with lowPower := false } ∧
    drive (.setIme b) s = { s with ime := b }

/-! ### Encoding -/

/-- Decode and encode agree: every well-formed instruction, with every operand at every value, is read back
from its bytes, whatever bytes follow (30_encoding.md). -/
def Obligations.DecodeOfEncode : Prop :=
  ∀ (i : Instr) (rest : List Byte), i.wellFormed = true → decode (encode i ++ rest) = .ok (i, rest)

/-- The other direction: what decodes is well-formed, and its encoding is the very bytes it was read from, so
each byte sequence has one meaning and the well-formed records are exactly the decoder's image
(60_exceptions.md section 6). -/
def Obligations.EncodeOfDecode : Prop :=
  ∀ (bytes rest : List Byte) (i : Instr), decode bytes = .ok (i, rest) → i.wellFormed = true ∧ encode i ++ rest = bytes

/-- The decoder yields no instruction exactly for the eleven bytes, whatever follows; eleven of the 256 bytes
are illegal and none of the prefixed ones. The ten bytes beside 0xD3 are the spec's general knowledge (K2;
30_encoding.md sections 3, 4). -/
def Obligations.IllegalBytesExactly : Prop :=
  (∀ b0 b1 b2 : Byte, (decodeRow b0 b1 b2).1.legal = decide (b0 ∉ illegalBytes)) ∧
  (∀ (b0 : Byte) (rest : List Byte), decode (b0 :: rest) = .error (.illegalOpcode b0) ↔ b0 ∈ illegalBytes) ∧
  ((List.range 256).filter fun n => !(decodeRow (.ofNat 8 n) 0 0).1.legal).length = 11 ∧
  ∀ op2 : Byte, (cbLookup op2).legal = true

/-- The length is told by the opcode byte alone, and the decoded record's own length is the number of bytes
taken: 3 and 2 for the listed bytes, 1 for every other. The list is the spec's general knowledge (K1) with
STOP one byte (decision D9; 30_encoding.md section 1). -/
def Obligations.LengthByOpcode : Prop :=
  let three : List Nat := [0x01, 0x11, 0x21, 0x31, 0x08, 0xC2, 0xC3, 0xC4, 0xCA, 0xCC, 0xCD, 0xD2, 0xD4, 0xDA, 0xDC,
    0xEA, 0xFA]
  let two : List Nat := [0x06, 0x0E, 0x16, 0x1E, 0x26, 0x2E, 0x36, 0x3E, 0x18, 0x20, 0x28, 0x30, 0x38, 0xC6, 0xCE,
    0xD6, 0xDE, 0xE6, 0xEE, 0xF6, 0xFE, 0xE0, 0xF0, 0xE8, 0xF8, 0xCB]
  ∀ b0 b1 b2 : Byte,
    (decodeRow b0 b1 b2).2 = (if b0.toNat ∈ three then 3 else if b0.toNat ∈ two then 2 else 1) ∧
    (decodeRow b0 b1 b2).1.length = (decodeRow b0 b1 b2).2

/-- A few words written out from the spec's encodings, one of each family (30_encoding.md). -/
def Obligations.SampleWordsDecode : Prop :=
  decode [0x86#8] = .ok (.addAR8 .hlInd, []) ∧ decode [0xD6#8, 0x01#8] = .ok (.subAN8 0x01#8, []) ∧
  decode [0x39#8] = .ok (.addHlR16 .sp, []) ∧ decode [0xCB#8, 0x37#8] = .ok (.swapR8 .a, []) ∧
  decode [0xCB#8, 0xD3#8] = .ok (.setBR8 0b010#3 .e, []) ∧ decode [0x30#8, 0xFD#8] = .ok (.jrCcE8 .nc 0xFD#8, []) ∧
  decode [0xCD#8, 0x34#8, 0x12#8] = .ok (.callA16 0x1234#16, []) ∧ decode [0xF1#8] = .ok (.popR16Stk .af, []) ∧
  decode [0x32#8] = .ok (.ldR16MemA .hlDec, []) ∧ decode [0x76#8, 0x00#8] = .ok (.halt, [0x00#8]) ∧
  decode [0x10#8, 0x00#8] = .ok (.stop, [0x00#8]) ∧ decode [0xD3#8] = .error (.illegalOpcode 0xD3#8)

/-! ### Registers, flags and memory -/

/-- The flag register: each flag is its bit of F; writing one leaves the other three and the zero low nibble; F
reads with a zero low nibble in every state, every write stores the value without it, and PUSH AF and POP AF go
through that mask. The mask at POP AF is the spec's own choice (decision D20; 10_state.md sections 1, 3). -/
def Obligations.FlagRegister : Prop :=
  ∀ (s : State) (fl : Flag) (v : Bool) (w : Byte),
    s.flagZ = decide (s.f &&& 0x80#8 ≠ 0) ∧ s.flagN = decide (s.f &&& 0x40#8 ≠ 0) ∧
    s.flagH = decide (s.f &&& 0x20#8 ≠ 0) ∧ s.flagC = decide (s.f &&& 0x10#8 ≠ 0) ∧
    (s.putFlag fl v).flag fl = v ∧ (∀ g : Flag, g ≠ fl → (s.putFlag fl v).flag g = s.flag g) ∧
    (s.putFlag fl v).f &&& 0x0F#8 = 0#8 ∧ s.putFlag fl v = { s with f := (s.putFlag fl v).f } ∧
    s.getF &&& 0x0F#8 = 0#8 ∧ (s.setF w).f = .ofNat 8 (w.toNat / 16 * 16) ∧
    (∃ t, exec (.pushR16Stk .af) s = .next t ∧ (t.readByte t.sp) &&& 0x0F#8 = 0#8) ∧
    ∃ t, exec (.popR16Stk .af) s = .next t ∧ t.f &&& 0x0F#8 = 0#8

/-- The pairs are views of the 8-bit registers, the first-named register the high byte, and writing a pair
writes both halves and nothing else. Which half is high is the spec's own choice (decision D24, K10;
10_state.md section 1). -/
def Obligations.PairsAreViews : Prop :=
  ∀ (s : State) (w : Word),
    s.af.toNat = 256 * s.a.toNat + s.getF.toNat ∧ s.bc.toNat = 256 * s.b.toNat + s.c.toNat ∧
    s.de.toNat = 256 * s.d.toNat + s.e.toNat ∧ s.hl.toNat = 256 * s.h.toNat + s.l.toNat ∧
    (let hi : Byte := .ofNat 8 (w.toNat / 256)
     let lo : Byte := .ofNat 8 w.toNat
     s.setBc w = { s with b := hi, c := lo } ∧ s.setDe w = { s with d := hi, e := lo } ∧
     s.setHl w = { s with h := hi, l := lo } ∧ s.setAf w = { s with a := hi, f := lo &&& 0xF0#8 })

/-- Byte accesses on the reference bus: a read after a write returns the byte written and every other byte is as
before, in every state. The reference bus is the spec's decision D1 and the model's choice of instance (log
entry 2; 20_memory.md section 1). -/
def Obligations.ByteReadAfterWrite : Prop :=
  ∀ (s : State) (x y : Word) (v : Byte),
    (s.writeByte x v).readByte y = (if y = x then v else s.readByte y) ∧ ButMemory (s.writeByte x v) s

/-- Mixed-width access on the reference bus: a byte read after a word write returns its half, and a word read over
two byte writes assembles them, at every address and across the top of the address space. The wrap is the
spec's decision D2, the byte order of a word write D3, the bus D1 (log entry 2; 20_memory.md sections 1, 2). -/
def Obligations.MixedWidthAccess : Prop :=
  ∀ (s : State) (x w : Word) (u v : Byte),
    (s.writeWord x w).readByte x = .ofNat 8 w.toNat ∧
    (s.writeWord x w).readByte (x + 1) = .ofNat 8 (w.toNat / 256) ∧
    (s.writeWord x w).readWord x = w ∧
    ((s.writeByte x u).writeByte (x + 1) v).readWord x = .ofNat 16 (u.toNat + 256 * v.toNat) ∧
    ((s.writeByte (x + 1) v).writeByte x u).readWord x = .ofNat 16 (u.toNat + 256 * v.toNat)

/-! ### Frames over all instructions -/

/-- No instruction changes an 8-bit register that the spec's table does not let it write; F is covered by
FlagFrame (10_state.md section 1). -/
def Obligations.RegisterFrame : Prop :=
  ∀ (i : Instr) (s t : State), exec i s = .next t →
    (∀ q : Reg8, q ≠ .f → q ∉ i.destRegs → t.reg8 q = s.reg8 q) ∧ (i.writesSp = false → t.sp = s.sp)

/-- No instruction changes a flag that the spec's flag table does not list for it (10_state.md
section 3). -/
def Obligations.FlagFrame : Prop :=
  ∀ (i : Instr) (s t : State), exec i s = .next t → ∀ fl : Flag, fl ∉ i.flagsWritten → t.flag fl = s.flag fl

/-- IME is changed by DI, EI and RETI only, `halted` by HALT only, `low_power` by STOP only, each to the value
the spec gives, and no instruction that completes changes the fault status (10_state.md section 4). -/
def Obligations.ControlFlagFrame : Prop :=
  ∀ (i : Instr) (s t : State), exec i s = .next t →
    t.ime = (if i = .di then false else if i = .ei ∨ i = .reti then true else s.ime) ∧
    t.halted = (if i = .halt then true else s.halted) ∧ t.lowPower = (if i = .stop then true else s.lowPower) ∧
    t.fault = s.fault

/-- How each instruction leaves PC, over one step of a running core: the length past the old PC, or the target
of a jump, call or return, and one past it at an illegal byte (10_state.md section 2). The PC after STOP (decision
D9), after RST (D26, K8) and at an illegal byte (D12) is the spec's own choice (log entry 11). -/
def Obligations.PcAfterEveryStep : Prop :=
  ∀ s : State, s.Running →
    (∀ t, step s = .next t →
      t.pc = s.fetched.1.pcAfter { s with pc := s.pc + BitVec.ofNat 16 s.fetched.1.length }) ∧
    ∀ r, step s = .fault r → r.after.pc = s.pc + 1

/-- Memory changes only where the spec's table of data accesses has a store: every byte outside the stored
bytes reads as before, for every instruction, a not-taken conditional among them (20_memory.md
section 4). -/
def Obligations.StoresOnlyWhereListed : Prop :=
  ∀ (i : Instr) (s t : State), exec i s = .next t → ∀ x : Word, x ∉ i.storedTo s → t.readByte x = s.readByte x

/-- Isolation from memory: an instruction's effect on everything but memory depends on memory only through the
bytes that the spec's table of data accesses has it read. So the core on a bus given as an argument, which
makes just the listed accesses, steps and executes on the reference bus exactly as the model's own step and
execute do, memory apart (20_memory.md section 4; the reference bus is decision D1, log entry 2). -/
def Obligations.ReadsOnlyWhereListed : Prop :=
  (∀ (i : Instr) (s t : State) (m : Memory), exec i s = .next t →
    (∀ x ∈ i.readsFrom s, Memory.read m x.toNat = s.readByte x) →
    ∃ u, exec i { s with mem := m } = .next u ∧ ButMemory u t) ∧
  ∀ s : State,
    stepOn referenceBus s s.mem = (stepOutcome s).map State.apart ∧
    ∀ i : Instr, executeOn referenceBus i s s.mem = (executeOutcome i s).map State.apart

/-- IME is read by nothing: two steps from states that differ only in IME end alike, and the states they reach
differ at most in IME. That the block takes no interrupt is the spec's own choice (decision D13; 10_state.md
section 4, 60_exceptions.md section 2). -/
def Obligations.ImeIsReadByNothing : Prop :=
  ∀ (s : State) (v : Bool),
    (∀ t, step s = .next t → ∃ u, step { s with ime := v } = .next u ∧ { u with ime := t.ime } = t) ∧
    ∀ r, step s = .fault r → ∃ q, step { s with ime := v } = .fault q ∧ { q.after with ime := r.after.ime } = r.after

/-- Self-modifying code: the byte LD [a16],A stores at the address of the next instruction is the opcode the
very next step runs, with no fence or delay (20_memory.md section 6). -/
def Obligations.StoreSeenByNextFetch : Prop :=
  ∀ s : State, s.Running → s.fetched = (.ldA16A (s.pc + 3), 3) →
    ∃ t, step s = .next t ∧ t.pc = s.pc + 3 ∧
      step t = exec (decodeRow s.a (s.readByte (s.pc + 4)) (s.readByte (s.pc + 5))).1
        (t.advancePc (decodeRow s.a (s.readByte (s.pc + 4)) (s.readByte (s.pc + 5))).2)

/-! ### Invariants -/

/-- The invariant holds at reset. Its memory clause is about the model's own form of memory (log entry 1). -/
def Obligations.ResetMeetsInv : Prop := State.reset.Inv ∧ ∀ m : Memory, Memory.wf m = true → (State.launch m).Inv

/-- Every step keeps the invariant, from every state that meets it: memory stays in its canonical form, the low
nibble of F stays zero, and not both hold flags become set; a completed step leaves no fault
(10_state.md section 1, 60_exceptions.md section 5; the memory clause is the model's, log entry 1). -/
def Obligations.StepKeepsInv : Prop :=
  ∀ s : State, s.Inv → (∀ t, step s = .next t → t.Inv ∧ t.fault = none) ∧ ∀ r, step s = .fault r → r.after.Inv

/-- Every sequence of driver actions keeps the invariant: resets, steps, executed records (ill-formed ones too),
memory writes and flag writes, in any order (60_exceptions.md sections 5, 6; log entries 1, 8). -/
def Obligations.DriverKeepsInv : Prop := ∀ (acts : List DriverAction) (s : State), s.Inv → (driveAll acts s).Inv
end

