-- ==== Sys2Proof/Laws/Bits.lean ====
section
/-! SUPPORT. Words from their halves, and the helpers as numbers. -/

namespace Sys2Proof

theorem mkWord_toNat (hi lo : Byte) : (mkWord hi lo).toNat = 256 * hi.toNat + lo.toNat := by
  have h : (mkWord hi lo).toNat = hi.toNat <<< 8 ||| lo.toNat := BitVec.toNat_append hi lo
  rw [h, ← Nat.shiftLeft_add_eq_or_of_lt lo.isLt, Nat.shiftLeft_eq]
  omega

theorem lo8_toNat (w : Word) : (lo8 w).toNat = w.toNat % 256 := by
  simp [lo8]

theorem hi8_toNat (w : Word) : (hi8 w).toNat = w.toNat / 256 := by
  have h := w.isLt
  simp only [hi8, BitVec.extractLsb'_toNat, Nat.shiftRight_eq_div_pow]
  omega

@[simp] theorem lo8_mkWord (hi lo : Byte) : lo8 (mkWord hi lo) = lo := by
  apply BitVec.eq_of_toNat_eq
  rw [lo8_toNat, mkWord_toNat]
  omega

@[simp] theorem hi8_mkWord (hi lo : Byte) : hi8 (mkWord hi lo) = hi := by
  apply BitVec.eq_of_toNat_eq
  rw [hi8_toNat, mkWord_toNat]
  omega

@[simp] theorem mkWord_hi8_lo8 (w : Word) : mkWord (hi8 w) (lo8 w) = w := by
  apply BitVec.eq_of_toNat_eq
  rw [mkWord_toNat, lo8_toNat, hi8_toNat]
  omega

theorem zext16_toNat (v : Byte) : (zext16 v).toNat = v.toNat := by
  have h := v.isLt
  simp only [zext16, BitVec.toNat_setWidth]
  omega

end Sys2Proof
end

