-- ==== Sys2Proof/Laws/Decode.lean ====
section
/-! SUPPORT. The operand code tables are inverse to each other, and what `decode` answers. -/

namespace Sys2Proof

@[simp] theorem R8.ofCode_code (r : R8) : R8.ofCode r.code = r := by cases r <;> rfl
@[simp] theorem R16.ofCode_code (r : R16) : R16.ofCode r.code = r := by cases r <;> rfl
@[simp] theorem R16Stk.ofCode_code (r : R16Stk) : R16Stk.ofCode r.code = r := by cases r <;> rfl
@[simp] theorem R16Mem.ofCode_code (m : R16Mem) : R16Mem.ofCode m.code = m := by cases m <;> rfl
@[simp] theorem Cond.ofCode_code (cc : Cond) : Cond.ofCode cc.code = cc := by cases cc <;> rfl

@[simp] theorem R8.code_ofCode (v : BitVec 3) : (R8.ofCode v).code = v := by revert v; decide
@[simp] theorem R16.code_ofCode (v : BitVec 2) : (R16.ofCode v).code = v := by revert v; decide
@[simp] theorem R16Stk.code_ofCode (v : BitVec 2) : (R16Stk.ofCode v).code = v := by revert v; decide
@[simp] theorem R16Mem.code_ofCode (v : BitVec 2) : (R16Mem.ofCode v).code = v := by revert v; decide
@[simp] theorem Cond.code_ofCode (v : BitVec 2) : (Cond.ofCode v).code = v := by revert v; decide

/-- What a decoded answer says of the bytes: the row is legal, there were enough bytes, and the rest is what
the row does not take. -/
theorem decode_ok {b0 : Byte} {rest out : List Byte} {i : Instr} (h : decode (b0 :: rest) = .ok (i, out)) :
    i = (decodeRow b0 (rest.getD 0 0) (rest.getD 1 0)).1 ∧ i.legal = true ∧
      (decodeRow b0 (rest.getD 0 0) (rest.getD 1 0)).2 ≤ rest.length + 1 ∧
      out = rest.drop ((decodeRow b0 (rest.getD 0 0) (rest.getD 1 0)).2 - 1) := by
  simp only [decode] at h
  split at h
  · cases h
  · rename_i hl
    split at h
    · cases h
    · rename_i hn
      simp only [Except.ok.injEq, Prod.mk.injEq] at h
      refine ⟨h.1.symm, ?_, by omega, h.2.symm⟩
      rw [← h.1]
      simpa using hl

end Sys2Proof
end

