-- ==== Sys2Proof/Laws/State.lean ====
section
/-! SUPPORT. One lemma per field per update of `State`, each true by unfolding, so that no later proof
unfolds a record update. -/

namespace Sys2Proof.Machine

variable (s : State)

/-! ### `State.setA` -/

@[simp] theorem State.setA_a (v : Byte) : (s.setA v).a = v := rfl
@[simp] theorem State.setA_f (v : Byte) : (s.setA v).f = s.f := rfl
@[simp] theorem State.setA_b (v : Byte) : (s.setA v).b = s.b := rfl
@[simp] theorem State.setA_c (v : Byte) : (s.setA v).c = s.c := rfl
@[simp] theorem State.setA_d (v : Byte) : (s.setA v).d = s.d := rfl
@[simp] theorem State.setA_e (v : Byte) : (s.setA v).e = s.e := rfl
@[simp] theorem State.setA_h (v : Byte) : (s.setA v).h = s.h := rfl
@[simp] theorem State.setA_l (v : Byte) : (s.setA v).l = s.l := rfl
@[simp] theorem State.setA_sp (v : Byte) : (s.setA v).sp = s.sp := rfl
@[simp] theorem State.setA_pc (v : Byte) : (s.setA v).pc = s.pc := rfl
@[simp] theorem State.setA_ime (v : Byte) : (s.setA v).ime = s.ime := rfl
@[simp] theorem State.setA_halted (v : Byte) : (s.setA v).halted = s.halted := rfl
@[simp] theorem State.setA_lowPower (v : Byte) : (s.setA v).lowPower = s.lowPower := rfl
@[simp] theorem State.setA_fault (v : Byte) : (s.setA v).fault = s.fault := rfl
@[simp] theorem State.setA_mem (v : Byte) : (s.setA v).mem = s.mem := rfl

/-! ### `State.setF` -/

@[simp] theorem State.setF_a (v : Byte) : (s.setF v).a = s.a := rfl
@[simp] theorem State.setF_f (v : Byte) : (s.setF v).f = v &&& 0xF0#8 := rfl
@[simp] theorem State.setF_b (v : Byte) : (s.setF v).b = s.b := rfl
@[simp] theorem State.setF_c (v : Byte) : (s.setF v).c = s.c := rfl
@[simp] theorem State.setF_d (v : Byte) : (s.setF v).d = s.d := rfl
@[simp] theorem State.setF_e (v : Byte) : (s.setF v).e = s.e := rfl
@[simp] theorem State.setF_h (v : Byte) : (s.setF v).h = s.h := rfl
@[simp] theorem State.setF_l (v : Byte) : (s.setF v).l = s.l := rfl
@[simp] theorem State.setF_sp (v : Byte) : (s.setF v).sp = s.sp := rfl
@[simp] theorem State.setF_pc (v : Byte) : (s.setF v).pc = s.pc := rfl
@[simp] theorem State.setF_ime (v : Byte) : (s.setF v).ime = s.ime := rfl
@[simp] theorem State.setF_halted (v : Byte) : (s.setF v).halted = s.halted := rfl
@[simp] theorem State.setF_lowPower (v : Byte) : (s.setF v).lowPower = s.lowPower := rfl
@[simp] theorem State.setF_fault (v : Byte) : (s.setF v).fault = s.fault := rfl
@[simp] theorem State.setF_mem (v : Byte) : (s.setF v).mem = s.mem := rfl

/-! ### `State.setAf` -/

@[simp] theorem State.setAf_a (w : Word) : (s.setAf w).a = hi8 w := rfl
@[simp] theorem State.setAf_f (w : Word) : (s.setAf w).f = lo8 w &&& 0xF0#8 := rfl
@[simp] theorem State.setAf_b (w : Word) : (s.setAf w).b = s.b := rfl
@[simp] theorem State.setAf_c (w : Word) : (s.setAf w).c = s.c := rfl
@[simp] theorem State.setAf_d (w : Word) : (s.setAf w).d = s.d := rfl
@[simp] theorem State.setAf_e (w : Word) : (s.setAf w).e = s.e := rfl
@[simp] theorem State.setAf_h (w : Word) : (s.setAf w).h = s.h := rfl
@[simp] theorem State.setAf_l (w : Word) : (s.setAf w).l = s.l := rfl
@[simp] theorem State.setAf_sp (w : Word) : (s.setAf w).sp = s.sp := rfl
@[simp] theorem State.setAf_pc (w : Word) : (s.setAf w).pc = s.pc := rfl
@[simp] theorem State.setAf_ime (w : Word) : (s.setAf w).ime = s.ime := rfl
@[simp] theorem State.setAf_halted (w : Word) : (s.setAf w).halted = s.halted := rfl
@[simp] theorem State.setAf_lowPower (w : Word) : (s.setAf w).lowPower = s.lowPower := rfl
@[simp] theorem State.setAf_fault (w : Word) : (s.setAf w).fault = s.fault := rfl
@[simp] theorem State.setAf_mem (w : Word) : (s.setAf w).mem = s.mem := rfl

/-! ### `State.setBc` -/

@[simp] theorem State.setBc_a (w : Word) : (s.setBc w).a = s.a := rfl
@[simp] theorem State.setBc_f (w : Word) : (s.setBc w).f = s.f := rfl
@[simp] theorem State.setBc_b (w : Word) : (s.setBc w).b = hi8 w := rfl
@[simp] theorem State.setBc_c (w : Word) : (s.setBc w).c = lo8 w := rfl
@[simp] theorem State.setBc_d (w : Word) : (s.setBc w).d = s.d := rfl
@[simp] theorem State.setBc_e (w : Word) : (s.setBc w).e = s.e := rfl
@[simp] theorem State.setBc_h (w : Word) : (s.setBc w).h = s.h := rfl
@[simp] theorem State.setBc_l (w : Word) : (s.setBc w).l = s.l := rfl
@[simp] theorem State.setBc_sp (w : Word) : (s.setBc w).sp = s.sp := rfl
@[simp] theorem State.setBc_pc (w : Word) : (s.setBc w).pc = s.pc := rfl
@[simp] theorem State.setBc_ime (w : Word) : (s.setBc w).ime = s.ime := rfl
@[simp] theorem State.setBc_halted (w : Word) : (s.setBc w).halted = s.halted := rfl
@[simp] theorem State.setBc_lowPower (w : Word) : (s.setBc w).lowPower = s.lowPower := rfl
@[simp] theorem State.setBc_fault (w : Word) : (s.setBc w).fault = s.fault := rfl
@[simp] theorem State.setBc_mem (w : Word) : (s.setBc w).mem = s.mem := rfl

/-! ### `State.setDe` -/

@[simp] theorem State.setDe_a (w : Word) : (s.setDe w).a = s.a := rfl
@[simp] theorem State.setDe_f (w : Word) : (s.setDe w).f = s.f := rfl
@[simp] theorem State.setDe_b (w : Word) : (s.setDe w).b = s.b := rfl
@[simp] theorem State.setDe_c (w : Word) : (s.setDe w).c = s.c := rfl
@[simp] theorem State.setDe_d (w : Word) : (s.setDe w).d = hi8 w := rfl
@[simp] theorem State.setDe_e (w : Word) : (s.setDe w).e = lo8 w := rfl
@[simp] theorem State.setDe_h (w : Word) : (s.setDe w).h = s.h := rfl
@[simp] theorem State.setDe_l (w : Word) : (s.setDe w).l = s.l := rfl
@[simp] theorem State.setDe_sp (w : Word) : (s.setDe w).sp = s.sp := rfl
@[simp] theorem State.setDe_pc (w : Word) : (s.setDe w).pc = s.pc := rfl
@[simp] theorem State.setDe_ime (w : Word) : (s.setDe w).ime = s.ime := rfl
@[simp] theorem State.setDe_halted (w : Word) : (s.setDe w).halted = s.halted := rfl
@[simp] theorem State.setDe_lowPower (w : Word) : (s.setDe w).lowPower = s.lowPower := rfl
@[simp] theorem State.setDe_fault (w : Word) : (s.setDe w).fault = s.fault := rfl
@[simp] theorem State.setDe_mem (w : Word) : (s.setDe w).mem = s.mem := rfl

/-! ### `State.setHl` -/

@[simp] theorem State.setHl_a (w : Word) : (s.setHl w).a = s.a := rfl
@[simp] theorem State.setHl_f (w : Word) : (s.setHl w).f = s.f := rfl
@[simp] theorem State.setHl_b (w : Word) : (s.setHl w).b = s.b := rfl
@[simp] theorem State.setHl_c (w : Word) : (s.setHl w).c = s.c := rfl
@[simp] theorem State.setHl_d (w : Word) : (s.setHl w).d = s.d := rfl
@[simp] theorem State.setHl_e (w : Word) : (s.setHl w).e = s.e := rfl
@[simp] theorem State.setHl_h (w : Word) : (s.setHl w).h = hi8 w := rfl
@[simp] theorem State.setHl_l (w : Word) : (s.setHl w).l = lo8 w := rfl
@[simp] theorem State.setHl_sp (w : Word) : (s.setHl w).sp = s.sp := rfl
@[simp] theorem State.setHl_pc (w : Word) : (s.setHl w).pc = s.pc := rfl
@[simp] theorem State.setHl_ime (w : Word) : (s.setHl w).ime = s.ime := rfl
@[simp] theorem State.setHl_halted (w : Word) : (s.setHl w).halted = s.halted := rfl
@[simp] theorem State.setHl_lowPower (w : Word) : (s.setHl w).lowPower = s.lowPower := rfl
@[simp] theorem State.setHl_fault (w : Word) : (s.setHl w).fault = s.fault := rfl
@[simp] theorem State.setHl_mem (w : Word) : (s.setHl w).mem = s.mem := rfl

/-! ### `State.setSp` -/

@[simp] theorem State.setSp_a (w : Word) : (s.setSp w).a = s.a := rfl
@[simp] theorem State.setSp_f (w : Word) : (s.setSp w).f = s.f := rfl
@[simp] theorem State.setSp_b (w : Word) : (s.setSp w).b = s.b := rfl
@[simp] theorem State.setSp_c (w : Word) : (s.setSp w).c = s.c := rfl
@[simp] theorem State.setSp_d (w : Word) : (s.setSp w).d = s.d := rfl
@[simp] theorem State.setSp_e (w : Word) : (s.setSp w).e = s.e := rfl
@[simp] theorem State.setSp_h (w : Word) : (s.setSp w).h = s.h := rfl
@[simp] theorem State.setSp_l (w : Word) : (s.setSp w).l = s.l := rfl
@[simp] theorem State.setSp_sp (w : Word) : (s.setSp w).sp = w := rfl
@[simp] theorem State.setSp_pc (w : Word) : (s.setSp w).pc = s.pc := rfl
@[simp] theorem State.setSp_ime (w : Word) : (s.setSp w).ime = s.ime := rfl
@[simp] theorem State.setSp_halted (w : Word) : (s.setSp w).halted = s.halted := rfl
@[simp] theorem State.setSp_lowPower (w : Word) : (s.setSp w).lowPower = s.lowPower := rfl
@[simp] theorem State.setSp_fault (w : Word) : (s.setSp w).fault = s.fault := rfl
@[simp] theorem State.setSp_mem (w : Word) : (s.setSp w).mem = s.mem := rfl

/-! ### `State.setPc` -/

@[simp] theorem State.setPc_a (w : Word) : (s.setPc w).a = s.a := rfl
@[simp] theorem State.setPc_f (w : Word) : (s.setPc w).f = s.f := rfl
@[simp] theorem State.setPc_b (w : Word) : (s.setPc w).b = s.b := rfl
@[simp] theorem State.setPc_c (w : Word) : (s.setPc w).c = s.c := rfl
@[simp] theorem State.setPc_d (w : Word) : (s.setPc w).d = s.d := rfl
@[simp] theorem State.setPc_e (w : Word) : (s.setPc w).e = s.e := rfl
@[simp] theorem State.setPc_h (w : Word) : (s.setPc w).h = s.h := rfl
@[simp] theorem State.setPc_l (w : Word) : (s.setPc w).l = s.l := rfl
@[simp] theorem State.setPc_sp (w : Word) : (s.setPc w).sp = s.sp := rfl
@[simp] theorem State.setPc_pc (w : Word) : (s.setPc w).pc = w := rfl
@[simp] theorem State.setPc_ime (w : Word) : (s.setPc w).ime = s.ime := rfl
@[simp] theorem State.setPc_halted (w : Word) : (s.setPc w).halted = s.halted := rfl
@[simp] theorem State.setPc_lowPower (w : Word) : (s.setPc w).lowPower = s.lowPower := rfl
@[simp] theorem State.setPc_fault (w : Word) : (s.setPc w).fault = s.fault := rfl
@[simp] theorem State.setPc_mem (w : Word) : (s.setPc w).mem = s.mem := rfl

/-! ### `State.advancePc` -/

@[simp] theorem State.advancePc_a (n : Nat) : (s.advancePc n).a = s.a := rfl
@[simp] theorem State.advancePc_f (n : Nat) : (s.advancePc n).f = s.f := rfl
@[simp] theorem State.advancePc_b (n : Nat) : (s.advancePc n).b = s.b := rfl
@[simp] theorem State.advancePc_c (n : Nat) : (s.advancePc n).c = s.c := rfl
@[simp] theorem State.advancePc_d (n : Nat) : (s.advancePc n).d = s.d := rfl
@[simp] theorem State.advancePc_e (n : Nat) : (s.advancePc n).e = s.e := rfl
@[simp] theorem State.advancePc_h (n : Nat) : (s.advancePc n).h = s.h := rfl
@[simp] theorem State.advancePc_l (n : Nat) : (s.advancePc n).l = s.l := rfl
@[simp] theorem State.advancePc_sp (n : Nat) : (s.advancePc n).sp = s.sp := rfl
@[simp] theorem State.advancePc_pc (n : Nat) : (s.advancePc n).pc = s.pc + BitVec.ofNat 16 n := rfl
@[simp] theorem State.advancePc_ime (n : Nat) : (s.advancePc n).ime = s.ime := rfl
@[simp] theorem State.advancePc_halted (n : Nat) : (s.advancePc n).halted = s.halted := rfl
@[simp] theorem State.advancePc_lowPower (n : Nat) : (s.advancePc n).lowPower = s.lowPower := rfl
@[simp] theorem State.advancePc_fault (n : Nat) : (s.advancePc n).fault = s.fault := rfl
@[simp] theorem State.advancePc_mem (n : Nat) : (s.advancePc n).mem = s.mem := rfl

/-! ### `State.setIme` -/

@[simp] theorem State.setIme_a (v : Bool) : (s.setIme v).a = s.a := rfl
@[simp] theorem State.setIme_f (v : Bool) : (s.setIme v).f = s.f := rfl
@[simp] theorem State.setIme_b (v : Bool) : (s.setIme v).b = s.b := rfl
@[simp] theorem State.setIme_c (v : Bool) : (s.setIme v).c = s.c := rfl
@[simp] theorem State.setIme_d (v : Bool) : (s.setIme v).d = s.d := rfl
@[simp] theorem State.setIme_e (v : Bool) : (s.setIme v).e = s.e := rfl
@[simp] theorem State.setIme_h (v : Bool) : (s.setIme v).h = s.h := rfl
@[simp] theorem State.setIme_l (v : Bool) : (s.setIme v).l = s.l := rfl
@[simp] theorem State.setIme_sp (v : Bool) : (s.setIme v).sp = s.sp := rfl
@[simp] theorem State.setIme_pc (v : Bool) : (s.setIme v).pc = s.pc := rfl
@[simp] theorem State.setIme_ime (v : Bool) : (s.setIme v).ime = v := rfl
@[simp] theorem State.setIme_halted (v : Bool) : (s.setIme v).halted = s.halted := rfl
@[simp] theorem State.setIme_lowPower (v : Bool) : (s.setIme v).lowPower = s.lowPower := rfl
@[simp] theorem State.setIme_fault (v : Bool) : (s.setIme v).fault = s.fault := rfl
@[simp] theorem State.setIme_mem (v : Bool) : (s.setIme v).mem = s.mem := rfl

/-! ### `State.setHalted` -/

@[simp] theorem State.setHalted_a (v : Bool) : (s.setHalted v).a = s.a := rfl
@[simp] theorem State.setHalted_f (v : Bool) : (s.setHalted v).f = s.f := rfl
@[simp] theorem State.setHalted_b (v : Bool) : (s.setHalted v).b = s.b := rfl
@[simp] theorem State.setHalted_c (v : Bool) : (s.setHalted v).c = s.c := rfl
@[simp] theorem State.setHalted_d (v : Bool) : (s.setHalted v).d = s.d := rfl
@[simp] theorem State.setHalted_e (v : Bool) : (s.setHalted v).e = s.e := rfl
@[simp] theorem State.setHalted_h (v : Bool) : (s.setHalted v).h = s.h := rfl
@[simp] theorem State.setHalted_l (v : Bool) : (s.setHalted v).l = s.l := rfl
@[simp] theorem State.setHalted_sp (v : Bool) : (s.setHalted v).sp = s.sp := rfl
@[simp] theorem State.setHalted_pc (v : Bool) : (s.setHalted v).pc = s.pc := rfl
@[simp] theorem State.setHalted_ime (v : Bool) : (s.setHalted v).ime = s.ime := rfl
@[simp] theorem State.setHalted_halted (v : Bool) : (s.setHalted v).halted = v := rfl
@[simp] theorem State.setHalted_lowPower (v : Bool) : (s.setHalted v).lowPower = s.lowPower := rfl
@[simp] theorem State.setHalted_fault (v : Bool) : (s.setHalted v).fault = s.fault := rfl
@[simp] theorem State.setHalted_mem (v : Bool) : (s.setHalted v).mem = s.mem := rfl

/-! ### `State.setLowPower` -/

@[simp] theorem State.setLowPower_a (v : Bool) : (s.setLowPower v).a = s.a := rfl
@[simp] theorem State.setLowPower_f (v : Bool) : (s.setLowPower v).f = s.f := rfl
@[simp] theorem State.setLowPower_b (v : Bool) : (s.setLowPower v).b = s.b := rfl
@[simp] theorem State.setLowPower_c (v : Bool) : (s.setLowPower v).c = s.c := rfl
@[simp] theorem State.setLowPower_d (v : Bool) : (s.setLowPower v).d = s.d := rfl
@[simp] theorem State.setLowPower_e (v : Bool) : (s.setLowPower v).e = s.e := rfl
@[simp] theorem State.setLowPower_h (v : Bool) : (s.setLowPower v).h = s.h := rfl
@[simp] theorem State.setLowPower_l (v : Bool) : (s.setLowPower v).l = s.l := rfl
@[simp] theorem State.setLowPower_sp (v : Bool) : (s.setLowPower v).sp = s.sp := rfl
@[simp] theorem State.setLowPower_pc (v : Bool) : (s.setLowPower v).pc = s.pc := rfl
@[simp] theorem State.setLowPower_ime (v : Bool) : (s.setLowPower v).ime = s.ime := rfl
@[simp] theorem State.setLowPower_halted (v : Bool) : (s.setLowPower v).halted = s.halted := rfl
@[simp] theorem State.setLowPower_lowPower (v : Bool) : (s.setLowPower v).lowPower = v := rfl
@[simp] theorem State.setLowPower_fault (v : Bool) : (s.setLowPower v).fault = s.fault := rfl
@[simp] theorem State.setLowPower_mem (v : Bool) : (s.setLowPower v).mem = s.mem := rfl

/-! ### `State.setFlags` -/

@[simp] theorem State.setFlags_a (z n h c : Bool) : (s.setFlags z n h c).a = s.a := rfl
@[simp] theorem State.setFlags_f (z n h c : Bool) : (s.setFlags z n h c).f = packFlags z n h c &&& 0xF0#8 := rfl
@[simp] theorem State.setFlags_b (z n h c : Bool) : (s.setFlags z n h c).b = s.b := rfl
@[simp] theorem State.setFlags_c (z n h c : Bool) : (s.setFlags z n h c).c = s.c := rfl
@[simp] theorem State.setFlags_d (z n h c : Bool) : (s.setFlags z n h c).d = s.d := rfl
@[simp] theorem State.setFlags_e (z n h c : Bool) : (s.setFlags z n h c).e = s.e := rfl
@[simp] theorem State.setFlags_h (z n h c : Bool) : (s.setFlags z n h c).h = s.h := rfl
@[simp] theorem State.setFlags_l (z n h c : Bool) : (s.setFlags z n h c).l = s.l := rfl
@[simp] theorem State.setFlags_sp (z n h c : Bool) : (s.setFlags z n h c).sp = s.sp := rfl
@[simp] theorem State.setFlags_pc (z n h c : Bool) : (s.setFlags z n h c).pc = s.pc := rfl
@[simp] theorem State.setFlags_ime (z n h c : Bool) : (s.setFlags z n h c).ime = s.ime := rfl
@[simp] theorem State.setFlags_halted (z n h c : Bool) : (s.setFlags z n h c).halted = s.halted := rfl
@[simp] theorem State.setFlags_lowPower (z n h c : Bool) : (s.setFlags z n h c).lowPower = s.lowPower := rfl
@[simp] theorem State.setFlags_fault (z n h c : Bool) : (s.setFlags z n h c).fault = s.fault := rfl
@[simp] theorem State.setFlags_mem (z n h c : Bool) : (s.setFlags z n h c).mem = s.mem := rfl

/-! ### `State.writeByte` -/

@[simp] theorem State.writeByte_a (x : Word) (v : Byte) : (s.writeByte x v).a = s.a := rfl
@[simp] theorem State.writeByte_f (x : Word) (v : Byte) : (s.writeByte x v).f = s.f := rfl
@[simp] theorem State.writeByte_b (x : Word) (v : Byte) : (s.writeByte x v).b = s.b := rfl
@[simp] theorem State.writeByte_c (x : Word) (v : Byte) : (s.writeByte x v).c = s.c := rfl
@[simp] theorem State.writeByte_d (x : Word) (v : Byte) : (s.writeByte x v).d = s.d := rfl
@[simp] theorem State.writeByte_e (x : Word) (v : Byte) : (s.writeByte x v).e = s.e := rfl
@[simp] theorem State.writeByte_h (x : Word) (v : Byte) : (s.writeByte x v).h = s.h := rfl
@[simp] theorem State.writeByte_l (x : Word) (v : Byte) : (s.writeByte x v).l = s.l := rfl
@[simp] theorem State.writeByte_sp (x : Word) (v : Byte) : (s.writeByte x v).sp = s.sp := rfl
@[simp] theorem State.writeByte_pc (x : Word) (v : Byte) : (s.writeByte x v).pc = s.pc := rfl
@[simp] theorem State.writeByte_ime (x : Word) (v : Byte) : (s.writeByte x v).ime = s.ime := rfl
@[simp] theorem State.writeByte_halted (x : Word) (v : Byte) : (s.writeByte x v).halted = s.halted := rfl
@[simp] theorem State.writeByte_lowPower (x : Word) (v : Byte) : (s.writeByte x v).lowPower = s.lowPower := rfl
@[simp] theorem State.writeByte_fault (x : Word) (v : Byte) : (s.writeByte x v).fault = s.fault := rfl
@[simp] theorem State.writeByte_mem (x : Word) (v : Byte) : (s.writeByte x v).mem = Memory.write s.mem x.toNat v := rfl

/-! ### `State.writeWord` -/

@[simp] theorem State.writeWord_a (x w : Word) : (s.writeWord x w).a = s.a := rfl
@[simp] theorem State.writeWord_f (x w : Word) : (s.writeWord x w).f = s.f := rfl
@[simp] theorem State.writeWord_b (x w : Word) : (s.writeWord x w).b = s.b := rfl
@[simp] theorem State.writeWord_c (x w : Word) : (s.writeWord x w).c = s.c := rfl
@[simp] theorem State.writeWord_d (x w : Word) : (s.writeWord x w).d = s.d := rfl
@[simp] theorem State.writeWord_e (x w : Word) : (s.writeWord x w).e = s.e := rfl
@[simp] theorem State.writeWord_h (x w : Word) : (s.writeWord x w).h = s.h := rfl
@[simp] theorem State.writeWord_l (x w : Word) : (s.writeWord x w).l = s.l := rfl
@[simp] theorem State.writeWord_sp (x w : Word) : (s.writeWord x w).sp = s.sp := rfl
@[simp] theorem State.writeWord_pc (x w : Word) : (s.writeWord x w).pc = s.pc := rfl
@[simp] theorem State.writeWord_ime (x w : Word) : (s.writeWord x w).ime = s.ime := rfl
@[simp] theorem State.writeWord_halted (x w : Word) : (s.writeWord x w).halted = s.halted := rfl
@[simp] theorem State.writeWord_lowPower (x w : Word) : (s.writeWord x w).lowPower = s.lowPower := rfl
@[simp] theorem State.writeWord_fault (x w : Word) : (s.writeWord x w).fault = s.fault := rfl
@[simp] theorem State.writeWord_mem (x w : Word) : (s.writeWord x w).mem = Memory.write (Memory.write s.mem x.toNat (lo8 w)) (x + 1).toNat (hi8 w) := rfl

end Sys2Proof.Machine
end

