-- ==== Sys2Proof/Laws/Flags.lean ====
section
/-! SUPPORT. The flags after a flag write, F's mask, and the register views after each update. -/

namespace Sys2Proof.Machine

variable (s : State)

@[simp] theorem packFlags_masked (z n h c : Bool) : packFlags z n h c &&& 0xF0#8 = packFlags z n h c := by
  revert z n h c; decide

@[simp] theorem State.flagZ_setFlags (z n h c : Bool) : (s.setFlags z n h c).flagZ = z := by
  revert z n h c; simp only [State.flagZ, State.setFlags_f, packFlags_masked]; decide

@[simp] theorem State.flagN_setFlags (z n h c : Bool) : (s.setFlags z n h c).flagN = n := by
  revert z n h c; simp only [State.flagN, State.setFlags_f, packFlags_masked]; decide

@[simp] theorem State.flagH_setFlags (z n h c : Bool) : (s.setFlags z n h c).flagH = h := by
  revert z n h c; simp only [State.flagH, State.setFlags_f, packFlags_masked]; decide

@[simp] theorem State.flagC_setFlags (z n h c : Bool) : (s.setFlags z n h c).flagC = c := by
  revert z n h c; simp only [State.flagC, State.setFlags_f, packFlags_masked]; decide

@[simp] theorem State.getF_setFlags (z n h c : Bool) : (s.setFlags z n h c).getF = packFlags z n h c := by
  simp [State.getF]

/-- F reads as its own four flags. -/
theorem State.getF_eq_pack : s.getF = packFlags s.flagZ s.flagN s.flagH s.flagC := by
  unfold State.getF State.flagZ State.flagN State.flagH State.flagC
  generalize s.f = v
  revert v; decide +kernel

/-- A write of F through its mask leaves the low nibble zero. -/
theorem mask_low (v : Byte) : v &&& 0xF0#8 &&& 0x0F#8 = 0#8 := by
  rw [BitVec.and_assoc]; exact BitVec.and_zero

@[simp] theorem State.hl_setHl (w : Word) : (s.setHl w).hl = w := by simp [State.hl]
@[simp] theorem State.bc_setBc (w : Word) : (s.setBc w).bc = w := by simp [State.bc]
@[simp] theorem State.de_setDe (w : Word) : (s.setDe w).de = w := by simp [State.de]

end Sys2Proof.Machine
end

