-- ==== Sys2Proof/Laws/Memory.lean ====
section
/-! SUPPORT. What each memory operation does to every byte, and that it keeps the canonical form. -/

namespace Sys2Proof.Machine

/-! ### Reading after an operation -/

theorem Memory.read_erase (m : Memory) (x y : Nat) :
    Memory.read (Memory.erase m x) y = if y = x then Config.unlistedByte else Memory.read m y := by
  induction m with
  | nil => simp [Memory.erase, Memory.read]
  | cons p m ih =>
    obtain ⟨k, v⟩ := p
    simp only [Memory.erase, Memory.read]
    split <;> rename_i hk
    · rw [ih]; subst hk
      split <;> rename_i hy
      · rfl
      · rw [if_neg (Ne.symm hy)]
    · simp only [Memory.read, ih]
      split <;> rename_i hky
      · subst hky; rw [if_neg hk]
      · rfl

theorem Memory.read_insert_self (m : Memory) (x : Nat) (v : Byte)
    (hm : ∀ p ∈ m, p.1 ≠ x) : Memory.read (Memory.insert m x v) x = v := by
  induction m with
  | nil => simp [Memory.insert, Memory.read]
  | cons p m ih =>
    obtain ⟨k, w⟩ := p
    simp only [Memory.insert]
    split
    · simp [Memory.read]
    · rw [Memory.read, if_neg (hm (k, w) List.mem_cons_self)]
      exact ih fun q hq => hm q (List.mem_cons_of_mem _ hq)

theorem Memory.read_insert_other (m : Memory) (x y : Nat) (v : Byte) (h : y ≠ x) :
    Memory.read (Memory.insert m x v) y = Memory.read m y := by
  induction m with
  | nil => simp [Memory.insert, Memory.read, Ne.symm h]
  | cons p m ih =>
    obtain ⟨k, w⟩ := p
    simp only [Memory.insert]
    split
    · rw [Memory.read, if_neg (Ne.symm h)]
    · simp only [Memory.read, ih]

theorem Memory.erase_absent (m : Memory) (x : Nat) : ∀ p ∈ Memory.erase m x, p.1 ≠ x := by
  induction m with
  | nil => simp [Memory.erase]
  | cons q m ih =>
    obtain ⟨k, w⟩ := q
    simp only [Memory.erase]
    split <;> rename_i hk
    · exact ih
    · intro p hp
      rcases List.mem_cons.mp hp with rfl | hp
      · exact hk
      · exact ih p hp

/-- A read after a write: the byte written at its address, every other byte as it was. Of every list,
canonical or not. -/
theorem Memory.read_write (m : Memory) (x y : Nat) (v : Byte) :
    Memory.read (Memory.write m x v) y = if y = x then v else Memory.read m y := by
  unfold Memory.write
  split <;> rename_i hv
  · rw [Memory.read_erase, hv]
  · split <;> rename_i hy
    · subst hy; exact Memory.read_insert_self _ _ _ (Memory.erase_absent _ _)
    · rw [Memory.read_insert_other _ _ _ _ hy, Memory.read_erase, if_neg hy]

/-! ### The canonical form -/

theorem Memory.wfFrom_mono {m : Memory} {lo lo' : Nat} (h : lo' ≤ lo)
    (hm : Memory.wfFrom lo m = true) : Memory.wfFrom lo' m = true := by
  cases m with
  | nil => rfl
  | cons p m =>
    obtain ⟨k, v⟩ := p
    simp only [Memory.wfFrom, Bool.and_eq_true, decide_eq_true_eq] at hm ⊢
    exact ⟨⟨⟨Nat.le_trans h hm.1.1.1, hm.1.1.2⟩, hm.1.2⟩, hm.2⟩

theorem Memory.wfFrom_erase {m : Memory} {lo : Nat} (x : Nat) (hm : Memory.wfFrom lo m = true) :
    Memory.wfFrom lo (Memory.erase m x) = true := by
  induction m generalizing lo with
  | nil => rfl
  | cons p m ih =>
    obtain ⟨k, v⟩ := p
    simp only [Memory.wfFrom, Bool.and_eq_true, decide_eq_true_eq] at hm
    simp only [Memory.erase]
    split
    · exact Memory.wfFrom_mono (by omega) (ih hm.2)
    · simp only [Memory.wfFrom, Bool.and_eq_true, decide_eq_true_eq]
      exact ⟨hm.1, ih hm.2⟩

theorem Memory.wfFrom_insert {m : Memory} {lo x : Nat} {v : Byte} (hx : lo ≤ x)
    (hx' : x < Config.addressCount) (hv : v ≠ Config.unlistedByte) (ha : ∀ p ∈ m, p.1 ≠ x)
    (hm : Memory.wfFrom lo m = true) : Memory.wfFrom lo (Memory.insert m x v) = true := by
  induction m generalizing lo with
  | nil => simp [Memory.insert, Memory.wfFrom, hx, hx', hv]
  | cons p m ih =>
    obtain ⟨k, w⟩ := p
    have hk : k ≠ x := ha (k, w) List.mem_cons_self
    simp only [Memory.wfFrom, Bool.and_eq_true, decide_eq_true_eq] at hm
    simp only [Memory.insert]
    split
    · simp only [Memory.wfFrom, Bool.and_eq_true, decide_eq_true_eq]
      exact ⟨⟨⟨hx, hx'⟩, hv⟩, ⟨⟨by omega, hm.1.1.2⟩, hm.1.2⟩, hm.2⟩
    · simp only [Memory.wfFrom, Bool.and_eq_true, decide_eq_true_eq]
      exact ⟨hm.1, ih (by omega) (fun q hq => ha q (List.mem_cons_of_mem _ hq)) hm.2⟩

theorem Memory.wf_erase {m : Memory} (x : Nat) (hm : Memory.wf m = true) :
    Memory.wf (Memory.erase m x) = true := Memory.wfFrom_erase x hm

/-- Writing any byte at an address of the space keeps the canonical form. -/
theorem Memory.wf_write {m : Memory} {x : Nat} (v : Byte) (hx : x < Config.addressCount)
    (hm : Memory.wf m = true) : Memory.wf (Memory.write m x v) = true := by
  unfold Memory.write
  split <;> rename_i hv
  · exact Memory.wf_erase x hm
  · exact Memory.wfFrom_insert (Nat.zero_le _) hx hv (Memory.erase_absent _ _) (Memory.wf_erase x hm)

theorem Memory.wf_reset : Memory.wf State.reset.mem = true := rfl

/-! ### The bus -/

theorem State.readByte_writeByte (s : State) (x y : Word) (v : Byte) :
    (s.writeByte x v).readByte y = if y = x then v else s.readByte y := by
  simp only [State.readByte, State.writeByte_mem, Memory.read_write, BitVec.toNat_inj]

theorem State.readByte_writeByte_self (s : State) (x : Word) (v : Byte) :
    (s.writeByte x v).readByte x = v := by simp [State.readByte_writeByte]

theorem State.readByte_writeByte_other (s : State) {x y : Word} (v : Byte) (h : y ≠ x) :
    (s.writeByte x v).readByte y = s.readByte y := by simp [State.readByte_writeByte, h]

theorem State.wf_writeByte {s : State} (x : Word) (v : Byte) (h : Memory.wf s.mem = true) :
    Memory.wf (s.writeByte x v).mem = true := Memory.wf_write v x.isLt h

theorem State.wf_writeWord {s : State} (x w : Word) (h : Memory.wf s.mem = true) :
    Memory.wf (s.writeWord x w).mem = true := State.wf_writeByte _ _ (State.wf_writeByte _ _ h)

/-- A byte read sees memory only. -/
theorem State.readByte_congr {s t : State} (h : t.mem = s.mem) (x : Word) : t.readByte x = s.readByte x := by
  rw [State.readByte, State.readByte, h]

/-- A word read sees memory only. -/
theorem State.readWord_congr {s t : State} (h : t.mem = s.mem) (x : Word) : t.readWord x = s.readWord x := by
  rw [State.readWord, State.readWord, State.readByte_congr h, State.readByte_congr h]

theorem succ_ne_self (x : Word) : x + 1 ≠ x := by
  intro h
  have h1 : x + 1 - x = x - x := by rw [h]
  rw [BitVec.sub_self, BitVec.add_comm, BitVec.add_sub_cancel] at h1
  exact absurd h1 (by decide)

/-- What a word write does to every byte. -/
theorem State.readByte_writeWord (s : State) (x y w : Word) :
    (s.writeWord x w).readByte y =
      if y = x + 1 then hi8 w else if y = x then lo8 w else s.readByte y := by
  simp only [State.writeWord, State.readByte_writeByte]

/-- A word read after a word write at the same address, wrapped or not. -/
theorem State.readWord_writeWord (s : State) (x w : Word) : (s.writeWord x w).readWord x = mkWord (hi8 w) (lo8 w) := by
  simp [State.readWord, State.readByte_writeWord]

end Sys2Proof.Machine
end

