-- ==== Sys2Proof/Laws/Operands.lean ====
section
/-! SUPPORT. For each shared operand form and stack primitive, one lemma for each thing it can do: what is
read back, what is left alone, and that memory keeps its form. -/

namespace Sys2Proof.Machine

variable (s : State)

/-! ### `r8` -/

@[simp] theorem writeR8_f (r : R8) (v : Byte) : (writeR8 r v s).f = s.f := by cases r <;> rfl
@[simp] theorem writeR8_sp (r : R8) (v : Byte) : (writeR8 r v s).sp = s.sp := by cases r <;> rfl
@[simp] theorem writeR8_pc (r : R8) (v : Byte) : (writeR8 r v s).pc = s.pc := by cases r <;> rfl
@[simp] theorem writeR8_ime (r : R8) (v : Byte) : (writeR8 r v s).ime = s.ime := by cases r <;> rfl
@[simp] theorem writeR8_halted (r : R8) (v : Byte) : (writeR8 r v s).halted = s.halted := by cases r <;> rfl
@[simp] theorem writeR8_lowPower (r : R8) (v : Byte) : (writeR8 r v s).lowPower = s.lowPower := by cases r <;> rfl
@[simp] theorem writeR8_fault (r : R8) (v : Byte) : (writeR8 r v s).fault = s.fault := by cases r <;> rfl

/-- What is written is read back, `[HL]` included. -/
@[simp] theorem readR8_writeR8 (r : R8) (v : Byte) : readR8 r (writeR8 r v s) = v := by
  cases r <;> first | rfl | exact State.readByte_writeByte_self s s.hl v

/-- A write of an `r8` operand leaves every register that is not that operand. -/
theorem reg8_writeR8 {r : R8} {q : Reg8} (v : Byte) (h : q ∉ r.regs) : (writeR8 r v s).reg8 q = s.reg8 q := by
  cases r <;> cases q <;> first | rfl | exact absurd (by simp [R8.regs]) h

/-- A write of an `r8` operand stores nothing, or one byte at HL. -/
theorem readByte_writeR8 (r : R8) (v : Byte) (x : Word) :
    (writeR8 r v s).readByte x = if r = .hlInd ∧ x = s.hl then v else s.readByte x := by
  cases r <;> simp [writeR8, State.readByte_writeByte] <;> rfl

/-- Writing an operand back unchanged changes no register. -/
theorem writeR8_readR8 {r : R8} (h : r ≠ .hlInd) : writeR8 r (readR8 r s) s = s := by
  cases r <;> first | rfl | exact absurd rfl h

theorem wf_writeR8 {s : State} (r : R8) (v : Byte) (h : Memory.wf s.mem = true) :
    Memory.wf (writeR8 r v s).mem = true := by
  cases r <;> first | exact h | exact State.wf_writeByte _ _ h

@[simp] theorem readR8_setFlags (r : R8) (z n h c : Bool) : readR8 r (s.setFlags z n h c) = readR8 r s := by
  cases r <;> rfl

/-! ### `r16`, `r16stk`, `r16mem` -/

@[simp] theorem writeR16_f (r : R16) (w : Word) : (writeR16 r w s).f = s.f := by cases r <;> rfl
@[simp] theorem writeR16_pc (r : R16) (w : Word) : (writeR16 r w s).pc = s.pc := by cases r <;> rfl
@[simp] theorem writeR16_ime (r : R16) (w : Word) : (writeR16 r w s).ime = s.ime := by cases r <;> rfl
@[simp] theorem writeR16_halted (r : R16) (w : Word) : (writeR16 r w s).halted = s.halted := by cases r <;> rfl
@[simp] theorem writeR16_lowPower (r : R16) (w : Word) : (writeR16 r w s).lowPower = s.lowPower := by cases r <;> rfl
@[simp] theorem writeR16_fault (r : R16) (w : Word) : (writeR16 r w s).fault = s.fault := by cases r <;> rfl
@[simp] theorem writeR16_mem (r : R16) (w : Word) : (writeR16 r w s).mem = s.mem := by cases r <;> rfl

@[simp] theorem readR16_writeR16 (r : R16) (w : Word) : readR16 r (writeR16 r w s) = w := by
  cases r <;> simp [readR16, writeR16]

theorem reg8_writeR16 {r : R16} {q : Reg8} (w : Word) (h : q ∉ r.regs) : (writeR16 r w s).reg8 q = s.reg8 q := by
  cases r <;> cases q <;> first | rfl | exact absurd (by simp [R16.regs]) h

@[simp] theorem writeR16Stk_sp (r : R16Stk) (w : Word) : (writeR16Stk r w s).sp = s.sp := by cases r <;> rfl
@[simp] theorem writeR16Stk_pc (r : R16Stk) (w : Word) : (writeR16Stk r w s).pc = s.pc := by cases r <;> rfl
@[simp] theorem writeR16Stk_ime (r : R16Stk) (w : Word) : (writeR16Stk r w s).ime = s.ime := by cases r <;> rfl
@[simp] theorem writeR16Stk_halted (r : R16Stk) (w : Word) : (writeR16Stk r w s).halted = s.halted := by
  cases r <;> rfl
@[simp] theorem writeR16Stk_lowPower (r : R16Stk) (w : Word) : (writeR16Stk r w s).lowPower = s.lowPower := by
  cases r <;> rfl
@[simp] theorem writeR16Stk_fault (r : R16Stk) (w : Word) : (writeR16Stk r w s).fault = s.fault := by
  cases r <;> rfl
@[simp] theorem writeR16Stk_mem (r : R16Stk) (w : Word) : (writeR16Stk r w s).mem = s.mem := by cases r <;> rfl

theorem reg8_writeR16Stk {r : R16Stk} {q : Reg8} (w : Word) (h : q ∉ r.regs) :
    (writeR16Stk r w s).reg8 q = s.reg8 q := by
  cases r <;> cases q <;> first | rfl | exact absurd (by simp [R16Stk.regs]) h

/-- The low nibble of F stays zero through a pop of AF, and F is untouched by the other pops. -/
theorem low_writeR16Stk {s : State} (r : R16Stk) (w : Word) (h : s.f &&& 0x0F#8 = 0#8) :
    (writeR16Stk r w s).f &&& 0x0F#8 = 0#8 := by
  cases r <;> first | exact h | exact mask_low _

@[simp] theorem postR16Mem_a (m : R16Mem) : (postR16Mem m s).a = s.a := by cases m <;> rfl
@[simp] theorem postR16Mem_f (m : R16Mem) : (postR16Mem m s).f = s.f := by cases m <;> rfl
@[simp] theorem postR16Mem_sp (m : R16Mem) : (postR16Mem m s).sp = s.sp := by cases m <;> rfl
@[simp] theorem postR16Mem_pc (m : R16Mem) : (postR16Mem m s).pc = s.pc := by cases m <;> rfl
@[simp] theorem postR16Mem_ime (m : R16Mem) : (postR16Mem m s).ime = s.ime := by cases m <;> rfl
@[simp] theorem postR16Mem_halted (m : R16Mem) : (postR16Mem m s).halted = s.halted := by cases m <;> rfl
@[simp] theorem postR16Mem_lowPower (m : R16Mem) : (postR16Mem m s).lowPower = s.lowPower := by cases m <;> rfl
@[simp] theorem postR16Mem_fault (m : R16Mem) : (postR16Mem m s).fault = s.fault := by cases m <;> rfl
@[simp] theorem postR16Mem_mem (m : R16Mem) : (postR16Mem m s).mem = s.mem := by cases m <;> rfl

theorem reg8_postR16Mem {m : R16Mem} {q : Reg8} (h : q ∉ m.regs) : (postR16Mem m s).reg8 q = s.reg8 q := by
  cases m <;> cases q <;> first | rfl | exact absurd (by simp [R16Mem.regs]) h

/-! ### The stack primitives -/

@[simp] theorem push16_f (v : Word) : (s.push16 v).f = s.f := rfl
@[simp] theorem push16_sp (v : Word) : (s.push16 v).sp = s.sp - 2 := rfl
@[simp] theorem push16_pc (v : Word) : (s.push16 v).pc = s.pc := rfl
@[simp] theorem push16_ime (v : Word) : (s.push16 v).ime = s.ime := rfl
@[simp] theorem push16_halted (v : Word) : (s.push16 v).halted = s.halted := rfl
@[simp] theorem push16_lowPower (v : Word) : (s.push16 v).lowPower = s.lowPower := rfl
@[simp] theorem push16_fault (v : Word) : (s.push16 v).fault = s.fault := rfl
@[simp] theorem reg8_push16 (v : Word) (q : Reg8) : (s.push16 v).reg8 q = s.reg8 q := by cases q <;> rfl

/-- A push stores its word at the new SP and leaves every other byte. -/
theorem readByte_push16 (v x : Word) :
    (s.push16 v).readByte x =
      if x = s.sp - 2 + 1 then hi8 v else if x = s.sp - 2 then lo8 v else s.readByte x :=
  State.readByte_writeWord _ _ _ _

/-- What is pushed is what a pop finds. -/
@[simp] theorem top16_push16 (v : Word) : (s.push16 v).top16 = v := by
  rw [State.top16, push16_sp, State.push16, State.readWord_writeWord, mkWord_hi8_lo8]

theorem wf_push16 {s : State} (v : Word) (h : Memory.wf s.mem = true) : Memory.wf (s.push16 v).mem = true :=
  State.wf_writeWord _ _ h

@[simp] theorem drop16_sp : s.drop16.sp = s.sp + 2 := rfl
@[simp] theorem drop16_mem : s.drop16.mem = s.mem := rfl
@[simp] theorem reg8_drop16 (q : Reg8) : s.drop16.reg8 q = s.reg8 q := by cases q <;> rfl

/-! ### Conditions and addresses -/

/-- A condition looks at Z and C only. -/
theorem cond_congr {s t : State} (hz : t.flagZ = s.flagZ) (hc : t.flagC = s.flagC) (cc : Cond) :
    cond cc t = cond cc s := by
  cases cc <;> simp [cond, hz, hc]

theorem rstTarget_eq (y : BitVec 3) : rstTarget y = BitVec.ofNat 16 (8 * y.toNat) := by revert y; decide

theorem ioAddr_eq (v : Byte) : ioAddr v = BitVec.ofNat 16 (0xFF00 + v.toNat) := by revert v; decide +kernel

theorem sext16_eq (v : Byte) :
    sext16 v = BitVec.ofNat 16 (if v.toNat < 128 then v.toNat else 65536 + v.toNat - 256) := by
  revert v; decide +kernel

end Sys2Proof.Machine
end

