-- ==== Sys2Proof/Laws/PerInstr.lean ====
section
/-! SUPPORT. Laws stated per instruction: the encoder writes as many bytes as the length table says, one
lemma per constructor. -/

namespace Sys2Proof.Laws.EncodingLength

/-- The encoding has the length of the instruction's format (30_encoding.md rule R84). -/
def Statement (i : Instr) : Prop := (encode i).length = i.length

theorem nop : Statement .nop := rfl
theorem ldR16N16 (r : R16) (n16 : Word) : Statement (.ldR16N16 r n16) := rfl
theorem ldR16MemA (m : R16Mem) : Statement (.ldR16MemA m) := rfl
theorem incR16 (r : R16) : Statement (.incR16 r) := rfl
theorem incR8 (r : R8) : Statement (.incR8 r) := rfl
theorem decR8 (r : R8) : Statement (.decR8 r) := rfl
theorem ldR8N8 (r : R8) (n8 : Byte) : Statement (.ldR8N8 r n8) := rfl
theorem rlca : Statement .rlca := rfl
theorem rrca : Statement .rrca := rfl
theorem rla : Statement .rla := rfl
theorem rra : Statement .rra := rfl
theorem daa : Statement .daa := rfl
theorem cpl : Statement .cpl := rfl
theorem scf : Statement .scf := rfl
theorem ccf : Statement .ccf := rfl
theorem ldA16Sp (a16 : Word) : Statement (.ldA16Sp a16) := rfl
theorem addHlR16 (r : R16) : Statement (.addHlR16 r) := rfl
theorem ldAR16Mem (m : R16Mem) : Statement (.ldAR16Mem m) := rfl
theorem decR16 (r : R16) : Statement (.decR16 r) := rfl
theorem stop : Statement .stop := rfl
theorem jrE8 (e8 : Byte) : Statement (.jrE8 e8) := rfl
theorem jrCcE8 (cc : Cond) (e8 : Byte) : Statement (.jrCcE8 cc e8) := rfl
theorem halt : Statement .halt := rfl
theorem ldR8R8 (dst src : R8) : Statement (.ldR8R8 dst src) := rfl
theorem addAR8 (r : R8) : Statement (.addAR8 r) := rfl
theorem adcAR8 (r : R8) : Statement (.adcAR8 r) := rfl
theorem subAR8 (r : R8) : Statement (.subAR8 r) := rfl
theorem sbcAR8 (r : R8) : Statement (.sbcAR8 r) := rfl
theorem andAR8 (r : R8) : Statement (.andAR8 r) := rfl
theorem xorAR8 (r : R8) : Statement (.xorAR8 r) := rfl
theorem orAR8 (r : R8) : Statement (.orAR8 r) := rfl
theorem cpAR8 (r : R8) : Statement (.cpAR8 r) := rfl
theorem retCc (cc : Cond) : Statement (.retCc cc) := rfl
theorem popR16Stk (r : R16Stk) : Statement (.popR16Stk r) := rfl
theorem jpCcA16 (cc : Cond) (a16 : Word) : Statement (.jpCcA16 cc a16) := rfl
theorem jpA16 (a16 : Word) : Statement (.jpA16 a16) := rfl
theorem callCcA16 (cc : Cond) (a16 : Word) : Statement (.callCcA16 cc a16) := rfl
theorem pushR16Stk (r : R16Stk) : Statement (.pushR16Stk r) := rfl
theorem addAN8 (n8 : Byte) : Statement (.addAN8 n8) := rfl
theorem adcAN8 (n8 : Byte) : Statement (.adcAN8 n8) := rfl
theorem subAN8 (n8 : Byte) : Statement (.subAN8 n8) := rfl
theorem sbcAN8 (n8 : Byte) : Statement (.sbcAN8 n8) := rfl
theorem andAN8 (n8 : Byte) : Statement (.andAN8 n8) := rfl
theorem xorAN8 (n8 : Byte) : Statement (.xorAN8 n8) := rfl
theorem orAN8 (n8 : Byte) : Statement (.orAN8 n8) := rfl
theorem cpAN8 (n8 : Byte) : Statement (.cpAN8 n8) := rfl
theorem rst (y : BitVec 3) : Statement (.rst y) := rfl
theorem ret : Statement .ret := rfl
theorem reti : Statement .reti := rfl
theorem jpHl : Statement .jpHl := rfl
theorem ldSpHl : Statement .ldSpHl := rfl
theorem cbPrefix (op2 : Byte) : Statement (.cbPrefix op2) := rfl
theorem callA16 (a16 : Word) : Statement (.callA16 a16) := rfl
theorem ldhA8A (a8 : Byte) : Statement (.ldhA8A a8) := rfl
theorem ldhAA8 (a8 : Byte) : Statement (.ldhAA8 a8) := rfl
theorem ldhCA : Statement .ldhCA := rfl
theorem ldhAC : Statement .ldhAC := rfl
theorem addSpE8 (e8 : Byte) : Statement (.addSpE8 e8) := rfl
theorem ldHlSpE8 (e8 : Byte) : Statement (.ldHlSpE8 e8) := rfl
theorem ldA16A (a16 : Word) : Statement (.ldA16A a16) := rfl
theorem ldAA16 (a16 : Word) : Statement (.ldAA16 a16) := rfl
theorem di : Statement .di := rfl
theorem ei : Statement .ei := rfl
theorem illegalD3 : Statement .illegalD3 := rfl
theorem illegalDB : Statement .illegalDB := rfl
theorem illegalDD : Statement .illegalDD := rfl
theorem illegalE3 : Statement .illegalE3 := rfl
theorem illegalE4 : Statement .illegalE4 := rfl
theorem illegalEB : Statement .illegalEB := rfl
theorem illegalEC : Statement .illegalEC := rfl
theorem illegalED : Statement .illegalED := rfl
theorem illegalF4 : Statement .illegalF4 := rfl
theorem illegalFC : Statement .illegalFC := rfl
theorem illegalFD : Statement .illegalFD := rfl
theorem rlcR8 (r : R8) : Statement (.rlcR8 r) := rfl
theorem rrcR8 (r : R8) : Statement (.rrcR8 r) := rfl
theorem rlR8 (r : R8) : Statement (.rlR8 r) := rfl
theorem rrR8 (r : R8) : Statement (.rrR8 r) := rfl
theorem slaR8 (r : R8) : Statement (.slaR8 r) := rfl
theorem sraR8 (r : R8) : Statement (.sraR8 r) := rfl
theorem swapR8 (r : R8) : Statement (.swapR8 r) := rfl
theorem srlR8 (r : R8) : Statement (.srlR8 r) := rfl
theorem bitBR8 (b : BitVec 3) (r : R8) : Statement (.bitBR8 b r) := rfl
theorem resBR8 (b : BitVec 3) (r : R8) : Statement (.resBR8 b r) := rfl
theorem setBR8 (b : BitVec 3) (r : R8) : Statement (.setBR8 b r) := rfl

end Sys2Proof.Laws.EncodingLength
end

