-- ==== Sys2Proof/Laws/Step.lean ====
section
/-! SUPPORT. What a step, an instruction and the `execute` port can answer, said once. -/

namespace Sys2Proof.Machine

@[simp] theorem FaultStatus.after_report (r : FaultStatus) (s : State) : (r.report s).after = s := by cases r <;> rfl

/-- A step answers a sticky fault, holds, or runs the fetched record. -/
theorem step_cases (s : State) :
    (∃ r, s.fault = some r ∧ step s = .fault (r.report s)) ∨
      (s.fault = none ∧ s.held = true ∧ step s = .next s) ∨
      (s.Running ∧ step s = exec s.fetched.1 s.afterFetch) := by
  unfold step
  cases hf : s.fault with
  | some r => exact .inl ⟨r, rfl, rfl⟩
  | none =>
    cases hh : s.held with
    | true => exact .inr (.inl ⟨rfl, rfl, rfl⟩)
    | false =>
      have h := Bool.or_eq_false_iff.mp hh
      exact .inr (.inr ⟨⟨hf, h.1, h.2⟩, rfl⟩)

/-- A running core's step is the fetched record's meaning. -/
theorem step_running {s : State} (h : s.Running) : step s = exec s.fetched.1 s.afterFetch := by
  simp [step, State.held, h.1, h.2.1, h.2.2]

/-- A completed instruction or a raised fault: there is no third outcome. -/
theorem exec_cases (i : Instr) (s : State) :
    (∃ t, exec i s = .next t) ∨ ∃ r : FaultStatus, exec i s = raise r s := by
  cases i <;> first
    | exact .inl ⟨_, rfl⟩
    | exact .inr ⟨_, rfl⟩
    | skip
  case cbPrefix op2 =>
    refine .inl ?_
    show ∃ t, execCbPrefix op2 s = .next t
    unfold execCbPrefix
    split <;> exact ⟨_, rfl⟩
  case ldR8R8 dst src =>
    show (∃ t, execLdR8R8 dst src s = .next t) ∨ ∃ r : FaultStatus, execLdR8R8 dst src s = raise r s
    unfold execLdR8R8
    split
    · exact .inr ⟨_, rfl⟩
    · exact .inl ⟨_, rfl⟩

/-- A well-formed record completes. -/
theorem exec_wellFormed {i : Instr} (s : State) (h : i.wellFormed = true) : ∃ t, exec i s = .next t := by
  cases i <;> first
    | exact ⟨_, rfl⟩
    | exact absurd h Bool.false_ne_true
    | skip
  case ldR8R8 dst src =>
    show ∃ t, execLdR8R8 dst src s = .next t
    unfold execLdR8R8
    split
    · rename_i hb
      rw [hb.1, hb.2] at h
      exact absurd h (by decide)
    · exact ⟨_, rfl⟩

/-- The `execute` port answers a sticky fault, holds, runs a well-formed record, or raises
IllegalInstruction. -/
theorem executePort_cases (i : Instr) (s : State) :
    (∃ r, s.fault = some r ∧ executePort i s = .fault (r.report s)) ∨
      (s.fault = none ∧ s.held = true ∧ executePort i s = .next s) ∨
      (s.Running ∧ i.wellFormed = true ∧ executePort i s = exec i s) ∨
      (s.Running ∧ i.wellFormed = false ∧ executePort i s = raiseIllegalInstruction i s) := by
  unfold executePort
  cases hf : s.fault with
  | some r => exact .inl ⟨r, rfl, rfl⟩
  | none =>
    cases hh : s.held with
    | true => exact .inr (.inl ⟨rfl, rfl, rfl⟩)
    | false =>
      have h := Bool.or_eq_false_iff.mp hh
      cases hw : i.wellFormed with
      | true => exact .inr (.inr (.inl ⟨⟨hf, h.1, h.2⟩, rfl, rfl⟩))
      | false => exact .inr (.inr (.inr ⟨⟨hf, h.1, h.2⟩, rfl, rfl⟩))

/-- The host's step and the three-way outcome say the same: a completed step, a fault with its reason and the
state it leaves, and a held core, whose state stays. -/
theorem stepOutcome_cases (s : State) :
    (∃ r, s.fault = some r ∧ stepOutcome s = .fault r s ∧ step s = .fault (r.report s)) ∨
      (s.fault = none ∧ s.held = true ∧ stepOutcome s = .held ∧ step s = .next s) ∨
      (s.Running ∧ stepOutcome s = .ofRun (step s)) := by
  rcases step_cases s with ⟨r, hf, hs⟩ | ⟨hf, hh, hs⟩ | ⟨hr, hs⟩
  · exact .inl ⟨r, hf, by simp only [stepOutcome, gate, hf], hs⟩
  · exact .inr (.inl ⟨hf, hh, by simp only [stepOutcome, gate, hf, hh, if_pos], hs⟩)
  · refine .inr (.inr ⟨hr, ?_⟩)
    have hh : s.held = false := by rw [State.held, hr.2.1, hr.2.2]; rfl
    rw [hs]
    simp only [stepOutcome, gate, hr.1, hh]
    rfl

end Sys2Proof.Machine
end

