-- ==== Sys2Proof/Laws/Tables.lean ====
section
/-! SUPPORT. The spec's tables of registers, flags, PC and accesses at the instructions whose row depends on
an operand or a flag; at every other instruction the table's value is by unfolding. -/

namespace Sys2Proof

open Sys2Proof.Machine

theorem destRegs_cbPrefix (op2 : Byte) :
    (Instr.cbPrefix op2).destRegs = if (fieldX op2).toNat = 1 then [] else (R8.ofCode (fieldZ op2)).regs := rfl

theorem dataAccesses_cbPrefix (op2 : Byte) (s : State) :
    dataAccesses (.cbPrefix op2) s =
      if (fieldX op2).toNat = 1 then readsR8 (.ofCode (fieldZ op2)) s else updatesR8 (.ofCode (fieldZ op2)) s := rfl

theorem dataAccesses_callCcA16 (cc : Cond) (a16 : Word) (s : State) :
    dataAccesses (.callCcA16 cc a16) s = if cond cc s then [.writeWord (s.sp - 2)] else [] := rfl

theorem dataAccesses_retCc (cc : Cond) (s : State) :
    dataAccesses (.retCc cc) s = if cond cc s then [.readWord s.sp] else [] := rfl

theorem dataAccesses_ldR8R8 (dst src : R8) (s : State) :
    dataAccesses (.ldR8R8 dst src) s =
      if dst = .hlInd ∧ src = .hlInd then [] else readsR8 src s ++ writesR8 dst s := rfl

theorem pcAfter_jpCcA16 (cc : Cond) (a16 : Word) (s : State) :
    (Instr.jpCcA16 cc a16).pcAfter s = if cond cc s then a16 else s.pc := rfl

theorem pcAfter_callCcA16 (cc : Cond) (a16 : Word) (s : State) :
    (Instr.callCcA16 cc a16).pcAfter s = if cond cc s then a16 else s.pc := rfl

theorem pcAfter_jrCcE8 (cc : Cond) (e8 : Byte) (s : State) :
    (Instr.jrCcE8 cc e8).pcAfter s = if cond cc s then s.pc + sext16 e8 else s.pc := rfl

theorem pcAfter_retCc (cc : Cond) (s : State) :
    (Instr.retCc cc).pcAfter s = if cond cc s then s.readWord s.sp else s.pc := rfl

/-- No instruction's fetched length is zero, and none is above three. -/
theorem decodeRow_length (b0 b1 b2 : Byte) : 1 ≤ (decodeRow b0 b1 b2).2 ∧ (decodeRow b0 b1 b2).2 ≤ 3 := by
  unfold decodeRow
  split <;> simp only <;> omega

end Sys2Proof
end

