-- ==== Sys2Proof/Laws/Platform.lean ====
section
/-! SUPPORT. The core on the reference bus fetches and runs what `step` fetches and runs: one lemma for the
fetch, one for each shape of data access, and the case split over the instructions. -/

namespace Sys2Proof.Machine

variable {s : State}

theorem fetchOn_reference (s : State) : fetchOn referenceBus s.pc s.mem = (s.fetched, s.mem) := by
  have h2 : s.pc + 1 + 1 = s.pc + 2 := by rw [BitVec.add_assoc]; rfl
  have hb : ∀ x : Word, Memory.read s.mem x.toNat = s.readByte x := fun _ => rfl
  simp only [fetchOn, referenceBus, State.fetched, decodeRow, hb, h2]
  cases lookup (s.readByte s.pc) <;> rfl

/-- The instruction on the reference bus ends as `exec` ends, memory apart. -/
def OnReference (i : Instr) (s : State) : Prop :=
  runOn referenceBus i s s.mem = (StepOutcome.ofRun (exec i s)).map State.apart

/-- The reads of an `r8` operand give the core that operand. -/
theorem readR8_served (r : R8) (s : State) :
    readR8 r ((readsR8 r s).foldl (serveRead referenceBus) (s.bare, s.mem)).1 = readR8 r s := by
  cases r <;> first | rfl | exact State.readByte_writeByte_self _ _ _

/-- An operand is read and memory is left alone. -/
theorem onReference_reads {i : Instr} (r : R8) (f : Byte → State → State) (ha : dataAccesses i s = readsR8 r s)
    (hi : ∀ u, exec i u = .next (f (readR8 r u) u)) (hm : ∀ v, (f v s).mem = s.mem)
    (hb : ∀ v m, (f v { s with mem := m }).bare = (f v s).bare) : OnReference i s := by
  have hs := readR8_served r s
  simp only [OnReference, runOn, ha, hi, hs, StepOutcome.ofRun, StepOutcome.map, State.apart, hm]
  cases r <;> exact congrArg (fun x => StepOutcome.next (x, s.mem)) (hb _ _)

/-- An operand is read and written back, F with it. -/
theorem onReference_updates {i : Instr} (r : R8) (h : Byte → Byte → Byte) (k : Byte → Byte → Byte)
    (ha : dataAccesses i s = updatesR8 r s)
    (hi : ∀ u, exec i u = .next { writeR8 r (h (readR8 r u) u.f) u with f := k (readR8 r u) u.f }) :
    OnReference i s := by
  simp only [OnReference, runOn, ha, hi]
  cases r
  case hlInd =>
    let view := s.bare.writeByte s.hl (s.readByte s.hl)
    have hr : readR8 .hlInd view = s.readByte s.hl := State.readByte_writeByte_self _ _ _
    let done : State :=
      { writeR8 .hlInd (h (readR8 .hlInd view) s.f) view with f := k (readR8 .hlInd view) s.f }
    have hw : done.readByte s.hl = h (s.readByte s.hl) s.f :=
      (State.readByte_writeByte_self view s.hl _).trans (by rw [hr])
    show StepOutcome.next (done.bare, Memory.write s.mem s.hl.toNat (done.readByte s.hl)) = _
    rw [hw]
    show StepOutcome.next (State.bare { view with f := k (readR8 .hlInd view) s.f }, _) = _
    rw [hr]
    rfl
  all_goals rfl

/-- One byte is stored, and nothing is read. -/
theorem onReference_stores {i : Instr} (addr : Word) (v : Byte) (f : State → State)
    (ha : dataAccesses i s = [.writeByte addr]) (hi : exec i s = .next (f (s.writeByte addr v)))
    (hb : exec i s.bare = .next (f (s.bare.writeByte addr v)))
    (hm : ∀ u, (f u).mem = u.mem) (hf : (f (s.bare.writeByte addr v)).bare = (f (s.writeByte addr v)).bare) :
    OnReference i s := by
  simp only [OnReference, runOn, ha, List.foldl_cons, List.foldl_nil, serveRead, serveWrite, hb, hi,
    StepOutcome.ofRun, StepOutcome.map, State.apart, hf, hm, State.readByte_congr (hm _),
    State.readByte_writeByte_self]
  rfl

/-- One word is stored, and nothing is read. -/
theorem onReference_storesWord {i : Instr} (addr w : Word) (f : State → State)
    (ha : dataAccesses i s = [.writeWord addr]) (hi : exec i s = .next (f (s.writeWord addr w)))
    (hb : exec i s.bare = .next (f (s.bare.writeWord addr w)))
    (hm : ∀ u, (f u).mem = u.mem) (hf : (f (s.bare.writeWord addr w)).bare = (f (s.writeWord addr w)).bare) :
    OnReference i s := by
  simp only [OnReference, runOn, ha, List.foldl_cons, List.foldl_nil, serveRead, serveWrite, hb, hi,
    StepOutcome.ofRun, StepOutcome.map, State.apart, hf, hm, State.readWord_congr (hm _),
    State.readWord_writeWord, mkWord_hi8_lo8]
  rfl

/-- One byte is read, for A. -/
theorem onReference_loads {i : Instr} (addr : Word) (f : Byte → State → State)
    (ha : dataAccesses i s = [.readByte addr])
    (hi : ∀ u, u.bare = s.bare → exec i u = .next (f (u.readByte addr) u))
    (hm : ∀ v, (f v s).mem = s.mem) (hb : ∀ v m, (f v { s with mem := m }).bare = (f v s).bare) :
    OnReference i s := by
  have hr : (s.bare.writeByte addr (s.readByte addr)).readByte addr = s.readByte addr :=
    State.readByte_writeByte_self _ _ _
  have hv := hi (s.bare.writeByte addr (s.readByte addr)) rfl
  rw [hr] at hv
  simp only [OnReference, runOn, ha, List.foldl_cons, List.foldl_nil, serveRead, serveWrite, hi s rfl,
    StepOutcome.ofRun, StepOutcome.map, State.apart, hm]
  show (match exec i (s.bare.writeByte addr (s.readByte addr)) with
    | .next done => StepOutcome.next (done.bare, s.mem)
    | .fault r => .fault r.reason (r.after.bare, s.mem)
    | .refused r => .unmodelled r) = _
  rw [hv]
  exact congrArg (fun x => StepOutcome.next (x, s.mem)) (hb _ _)

/-- One word is read, from the stack. -/
theorem onReference_pops {i : Instr} (f : Word → State → State)
    (ha : dataAccesses i s = [.readWord s.sp]) (hi : ∀ u, u.bare = s.bare → exec i u = .next (f u.top16 u))
    (hm : ∀ v, (f v s).mem = s.mem) (hb : ∀ v m, (f v { s with mem := m }).bare = (f v s).bare) :
    OnReference i s := by
  have hr : (s.bare.writeWord s.sp s.top16).top16 = s.top16 :=
    (State.readWord_writeWord _ _ _).trans (mkWord_hi8_lo8 _)
  have hv := hi (s.bare.writeWord s.sp s.top16) rfl
  rw [hr] at hv
  simp only [OnReference, runOn, ha, List.foldl_cons, List.foldl_nil, serveRead, serveWrite, hi s rfl,
    StepOutcome.ofRun, StepOutcome.map, State.apart, hm]
  show (match exec i (s.bare.writeWord s.sp s.top16) with
    | .next done => StepOutcome.next (done.bare, s.mem)
    | .fault r => .fault r.reason (r.after.bare, s.mem)
    | .refused r => .unmodelled r) = _
  rw [hv]
  exact congrArg (fun x => StepOutcome.next (x, s.mem)) (hb _ _)

/-! ### The case split -/

/-- A load between two `r8` operands, at most one of them `[HL]`. -/
theorem onReference_ldR8R8 (dst src : R8) (s : State) : OnReference (.ldR8R8 dst src) s := by
  by_cases hb : dst = .hlInd ∧ src = .hlInd
  · obtain ⟨rfl, rfl⟩ := hb
    rfl
  · have hi : ∀ u, exec (.ldR8R8 dst src) u = .next (writeR8 dst (readR8 src u) u) := by
      intro u
      show execLdR8R8 dst src u = _
      rw [execLdR8R8, if_neg hb]
    by_cases hd : dst = .hlInd
    · subst hd
      have hs : src ≠ .hlInd := fun h => hb ⟨rfl, h⟩
      refine onReference_stores s.hl (readR8 src s) id ?_ (hi s) ?_ (fun _ => rfl) rfl
      · rw [dataAccesses_ldR8R8, if_neg hb, readsR8, if_neg hs]; rfl
      · rw [hi s.bare]; cases src <;> first | rfl | exact absurd rfl hs
    · refine onReference_reads src (fun v u => writeR8 dst v u) ?_ hi (fun v => ?_) (fun v m => ?_)
      · rw [dataAccesses_ldR8R8, if_neg hb, writesR8, if_neg hd, List.append_nil]
      · cases dst <;> first | rfl | exact absurd rfl hd
      · cases dst <;> rfl

/-- A prefixed rotate, shift or SWAP. -/
theorem onReference_rotR8 {i : Instr} (op : RotOp) (r : R8) (ha : dataAccesses i s = updatesR8 r s)
    (hi : ∀ u, exec i u = .next (rotR8 op r u)) : OnReference i s :=
  onReference_updates r (fun v f => rotResult op v (f.getLsbD 4))
    (fun v f => packFlags (rotResult op v (f.getLsbD 4) == 0) false false (rotCarry op v) &&& 0xF0#8) ha hi

/-- A prefixed record, by its selector. -/
theorem onReference_cbPrefix (op2 : Byte) (s : State) : OnReference (.cbPrefix op2) s := by
  have he : ∀ u, exec (.cbPrefix op2) u = execCbPrefix op2 u := fun _ => rfl
  have ha := dataAccesses_cbPrefix op2 s
  unfold execCbPrefix at he
  simp only at he
  split at he <;> rename_i hx
  · rw [if_neg (by omega)] at ha
    exact onReference_rotR8 _ _ ha he
  · rw [if_pos hx] at ha
    exact onReference_reads _
      (fun v u => u.setFlags (!v.getLsbD (fieldY op2).toNat) false true u.flagC) ha he (fun _ => rfl) (fun _ _ => rfl)
  · rw [if_neg (by omega)] at ha
    refine onReference_updates _ (fun v _ => v &&& ~~~bitMask (fieldY op2)) (fun _ f => f) ha (fun u => ?_)
    rw [he, clearBit]
    cases R8.ofCode (fieldZ op2) <;> rfl
  · rw [if_neg (by omega)] at ha
    refine onReference_updates _ (fun v _ => v ||| bitMask (fieldY op2)) (fun _ f => f) ha (fun u => ?_)
    rw [he, raiseBit]
    cases R8.ofCode (fieldZ op2) <;> rfl

/-- A conditional instruction: not taken it makes no access, taken it is its unconditional form. -/
theorem onReference_cond {i k : Instr} (cc : Cond) (s : State)
    (hi : ∀ u, exec i u = if cond cc u then exec k u else .next u)
    (ha : dataAccesses i s = if cond cc s then dataAccesses k s else [])
    (hk : OnReference k s) : OnReference i s := by
  have hc : ∀ (m : Memory), cond cc { s with mem := m } = cond cc s := fun m => cond_congr rfl rfl cc
  have hv : ∀ l : List Access, ∀ m, ∃ m', (l.foldl (serveRead referenceBus) ({ s with mem := m }, s.mem)).1 =
      { s with mem := m' } := by
    intro l
    induction l with
    | nil => exact fun m => ⟨m, rfl⟩
    | cons a l ih => intro m; cases a <;> exact ih _
  cases h : cond cc s with
  | true =>
    rw [h, if_pos rfl] at ha
    obtain ⟨m', hm'⟩ := hv (dataAccesses k s) []
    have h1 : exec i s = exec k s := by rw [hi, h]; rfl
    have h2 : exec i ((dataAccesses k s).foldl (serveRead referenceBus) (s.bare, s.mem)).1 =
        exec k ((dataAccesses k s).foldl (serveRead referenceBus) (s.bare, s.mem)).1 := by
      rw [hi, State.bare, hm', hc, h]; rfl
    unfold OnReference runOn at hk ⊢
    simp only [ha, h1, h2] at hk ⊢
    exact hk
  | false =>
    rw [h] at ha
    have h1 : exec i s = .next s := by rw [hi, h]; rfl
    have h2 : exec i s.bare = .next s.bare := by rw [hi, State.bare, hc, h]; rfl
    unfold OnReference runOn
    rw [ha, h1]
    show (match exec i s.bare with
      | .next done => StepOutcome.next (done.bare, s.mem)
      | .fault r => .fault r.reason (r.after.bare, s.mem)
      | .refused r => .unmodelled r) = _
    rw [h2]
    rfl

/-- A return, conditional or not. -/
theorem onReference_ret (s : State) : OnReference .ret s :=
  onReference_pops (fun w u => u.drop16.setPc w) rfl (fun _ _ => rfl) (fun _ => rfl) (fun _ _ => rfl)

/-- A call, conditional or not. -/
theorem onReference_callA16 (a16 : Word) (s : State) : OnReference (.callA16 a16) s :=
  onReference_storesWord (s.sp - 2) s.pc (fun u => (u.setSp (s.sp - 2)).setPc a16) rfl rfl rfl (fun _ => rfl) rfl

/-- Every instruction on the reference bus ends as `exec` ends. -/
theorem onReference (i : Instr) (s : State) : OnReference i s := by
  cases i
  case ldR8R8 dst src => exact onReference_ldR8R8 dst src s
  case cbPrefix op2 => exact onReference_cbPrefix op2 s
  case jpCcA16 cc a16 =>
    exact onReference_cond (k := .jpA16 a16) cc s
      (fun u => by show execJpCcA16 cc a16 u = _; unfold execJpCcA16; split <;> rfl) (by split <;> rfl) rfl
  case jrCcE8 cc e8 =>
    exact onReference_cond (k := .jrE8 e8) cc s
      (fun u => by show execJrCcE8 cc e8 u = _; unfold execJrCcE8; split <;> rfl) (by split <;> rfl) rfl
  case callCcA16 cc a16 =>
    exact onReference_cond (k := .callA16 a16) cc s
      (fun u => by show execCallCcA16 cc a16 u = _; unfold execCallCcA16; split <;> rfl) rfl (onReference_callA16 a16 s)
  case retCc cc =>
    exact onReference_cond (k := .ret) cc s
      (fun u => by show execRetCc cc u = _; unfold execRetCc; split <;> rfl) rfl (onReference_ret s)
  case ret => exact onReference_ret s
  case callA16 a16 => exact onReference_callA16 a16 s
  case reti =>
    exact onReference_pops (fun w u => (u.drop16.setPc w).setIme true) rfl (fun _ _ => rfl) (fun _ => rfl)
      (fun _ _ => rfl)
  case rst y =>
    exact onReference_storesWord (s.sp - 2) s.pc (fun u => (u.setSp (s.sp - 2)).setPc (rstTarget y)) rfl rfl rfl
      (fun _ => rfl) rfl
  case pushR16Stk r =>
    exact onReference_storesWord (s.sp - 2) (readR16Stk r s) (fun u => u.setSp (s.sp - 2)) rfl rfl
      (by cases r <;> rfl) (fun _ => rfl) rfl
  case popR16Stk r =>
    exact onReference_pops (fun w u => writeR16Stk r w u.drop16) rfl (fun _ _ => rfl) (fun _ => by cases r <;> rfl)
      (fun _ _ => by cases r <;> rfl)
  case ldA16Sp a16 => exact onReference_storesWord a16 s.sp id rfl rfl rfl (fun _ => rfl) rfl
  case ldA16A a16 => exact onReference_stores a16 s.a id rfl rfl rfl (fun _ => rfl) rfl
  case ldhA8A a8 => exact onReference_stores (ioAddr a8) s.a id rfl rfl rfl (fun _ => rfl) rfl
  case ldhCA => exact onReference_stores (ioAddr s.c) s.a id rfl rfl rfl (fun _ => rfl) rfl
  case ldR16MemA m =>
    exact onReference_stores (addrR16Mem m s) s.a (postR16Mem m) rfl rfl (by cases m <;> rfl)
      (fun _ => postR16Mem_mem _ m) (by cases m <;> rfl)
  case ldR8N8 r n8 =>
    by_cases hr : r = .hlInd
    · subst hr
      exact onReference_stores s.hl n8 id rfl rfl rfl (fun _ => rfl) rfl
    · cases r <;> first | rfl | exact absurd rfl hr
  case ldAA16 a16 =>
    exact onReference_loads a16 (fun v u => u.setA v) rfl (fun _ _ => rfl) (fun _ => rfl) (fun _ _ => rfl)
  case ldhAA8 a8 =>
    exact onReference_loads (ioAddr a8) (fun v u => u.setA v) rfl (fun _ _ => rfl) (fun _ => rfl) (fun _ _ => rfl)
  case ldhAC =>
    exact onReference_loads (ioAddr s.c) (fun v u => u.setA v) rfl
      (fun u h => by
        have hc : u.bare.c = s.bare.c := by rw [h]
        show execLdhAC u = _
        rw [execLdhAC, show u.c = s.c from hc]) (fun _ => rfl) (fun _ _ => rfl)
  case ldAR16Mem m =>
    refine onReference_loads (addrR16Mem m s) (fun v u => postR16Mem m (u.setA v)) rfl (fun u h => ?_)
      (fun _ => postR16Mem_mem _ m) (fun _ _ => by cases m <;> rfl)
    have ha : addrR16Mem m u = addrR16Mem m s := by
      have hu : addrR16Mem m u.bare = addrR16Mem m s.bare := by rw [h]
      cases m <;> exact hu
    show execLdAR16Mem m u = _
    rw [execLdAR16Mem, ha]
  case addAR8 r =>
    exact onReference_reads r (fun v u => u.putSum false (add8 u.a v false)) rfl (fun _ => rfl) (fun _ => rfl)
      (fun _ _ => rfl)
  case adcAR8 r =>
    exact onReference_reads r (fun v u => u.putSum false (add8 u.a v u.flagC)) rfl (fun _ => rfl) (fun _ => rfl)
      (fun _ _ => rfl)
  case subAR8 r =>
    exact onReference_reads r (fun v u => u.putSum true (sub8 u.a v false)) rfl (fun _ => rfl) (fun _ => rfl)
      (fun _ _ => rfl)
  case sbcAR8 r =>
    exact onReference_reads r (fun v u => u.putSum true (sub8 u.a v u.flagC)) rfl (fun _ => rfl) (fun _ => rfl)
      (fun _ _ => rfl)
  case andAR8 r =>
    exact onReference_reads r (fun v u => u.putLogic true (u.a &&& v)) rfl (fun _ => rfl) (fun _ => rfl)
      (fun _ _ => rfl)
  case xorAR8 r =>
    exact onReference_reads r (fun v u => u.putLogic false (u.a ^^^ v)) rfl (fun _ => rfl) (fun _ => rfl)
      (fun _ _ => rfl)
  case orAR8 r =>
    exact onReference_reads r (fun v u => u.putLogic false (u.a ||| v)) rfl (fun _ => rfl) (fun _ => rfl)
      (fun _ _ => rfl)
  case cpAR8 r =>
    exact onReference_reads r (fun v u => u.putCompare (sub8 u.a v false)) rfl (fun _ => rfl) (fun _ => rfl)
      (fun _ _ => rfl)
  case bitBR8 b r =>
    exact onReference_reads r (fun v u => u.setFlags (!v.getLsbD b.toNat) false true u.flagC) rfl (fun _ => rfl)
      (fun _ => rfl) (fun _ _ => rfl)
  case incR8 r =>
    exact onReference_updates r (fun v _ => v + 1)
      (fun v f => packFlags (v + 1 == 0) false (decide (lowNibble v = 0xF)) (f.getLsbD 4) &&& 0xF0#8) rfl (fun _ => rfl)
  case decR8 r =>
    exact onReference_updates r (fun v _ => v - 1)
      (fun v f => packFlags (v - 1 == 0) true (decide (lowNibble v = 0x0)) (f.getLsbD 4) &&& 0xF0#8) rfl (fun _ => rfl)
  case rlcR8 r => exact onReference_rotR8 .rlc r rfl (fun _ => rfl)
  case rrcR8 r => exact onReference_rotR8 .rrc r rfl (fun _ => rfl)
  case rlR8 r => exact onReference_rotR8 .rl r rfl (fun _ => rfl)
  case rrR8 r => exact onReference_rotR8 .rr r rfl (fun _ => rfl)
  case slaR8 r => exact onReference_rotR8 .sla r rfl (fun _ => rfl)
  case sraR8 r => exact onReference_rotR8 .sra r rfl (fun _ => rfl)
  case swapR8 r => exact onReference_rotR8 .swap r rfl (fun _ => rfl)
  case srlR8 r => exact onReference_rotR8 .srl r rfl (fun _ => rfl)
  case resBR8 b r =>
    exact onReference_updates r (fun v _ => v &&& ~~~bitMask b) (fun _ f => f) rfl (fun _ => by cases r <;> rfl)
  case setBR8 b r =>
    exact onReference_updates r (fun v _ => v ||| bitMask b) (fun _ f => f) rfl (fun _ => by cases r <;> rfl)
  case ldR16N16 r n16 => cases r <;> rfl
  case incR16 r => cases r <;> rfl
  case decR16 r => cases r <;> rfl
  case addHlR16 r => cases r <;> rfl
  all_goals rfl

end Sys2Proof.Machine
end

