-- ==== Sys2Proof/Tests/Slice0.lean ====
section
/-! SUPPORT. The smoke test of WellFormed, one word per constructor written out from the spec's encoding,
single steps from the spec's test vectors, and a witness for each statement that has hypotheses. -/

namespace Sys2Proof.Tests

open Sys2Proof Sys2Proof.Machine

set_option Elab.async false

/-! ### WellFormed: one ill-formed term for each check, and its well-formed neighbour -/

/-- Check 1: an illegal tag of the table. -/
theorem test_wellFormed_legal : Instr.illegalD3.wellFormed = false ∧ Instr.ei.wellFormed = true := by decide

/-- Check 2: a bare prefix record; the entry it selects is well-formed. -/
theorem test_wellFormed_entire :
    (Instr.cbPrefix 0x37#8).wellFormed = false ∧ (Instr.swapR8 .a).wellFormed = true := by decide

/-- Check 3: LD [HL],[HL]; the record 0x76 stands for is HALT. -/
theorem test_wellFormed_loadable :
    (Instr.ldR8R8 .hlInd .hlInd).wellFormed = false ∧ (Instr.ldR8R8 .hlInd .a).wellFormed = true := by decide

/-! ### Decode: a word for each constructor, its fields written out from spec/30_encoding.md -/

/-- The bytes are one whole instruction, and its encoding is the bytes again. -/
def reads (bytes : List Byte) (i : Instr) : Bool :=
  match decode bytes with
  | .ok (j, rest) => decide (j = i) && rest.isEmpty && decide (encode i = bytes)
  | .error _ => false

/-- The bytes yield no instruction: an illegal byte, whose row has its own tag. -/
def illegal (byte : Byte) (i : Instr) : Bool :=
  match decode [byte, 0, 0] with
  | .ok _ => false
  | .error r => decide (r = .illegalOpcode byte) && decide (decodeRow byte 0 0 = (i, 1)) && decide (encode i = [byte])

/-- 30_encoding.md rule R94, columns 0 to 3. -/
theorem test_decode_block0_low :
    (reads [0b00000000] .nop && reads [0b00001000, 0x34, 0x12] (.ldA16Sp 0x1234) &&
      reads [0b00010000] .stop && reads [0b00011000, 0xFE] (.jrE8 0xFE) &&
      reads [0b00100000, 0x05] (.jrCcE8 .nz 0x05) && reads [0b00110000, 0xFD] (.jrCcE8 .nc 0xFD) &&
      reads [0b00110001, 0xFE, 0xFF] (.ldR16N16 .sp 0xFFFE) && reads [0b00011001] (.addHlR16 .de) &&
      reads [0b00110010] (.ldR16MemA .hlDec) && reads [0b00101010] (.ldAR16Mem .hlInc) &&
      reads [0b00100011] (.incR16 .hl) && reads [0b00111011] (.decR16 .sp)) = true := by decide +kernel

/-- 30_encoding.md rule R94, columns 4 to 7. -/
theorem test_decode_block0_high :
    (reads [0b00110100] (.incR8 .hlInd) && reads [0b00001101] (.decR8 .c) &&
      reads [0b00111110, 0x42] (.ldR8N8 .a 0x42) && reads [0b00000111] .rlca && reads [0b00001111] .rrca &&
      reads [0b00010111] .rla && reads [0b00011111] .rra && reads [0b00100111] .daa && reads [0b00101111] .cpl &&
      reads [0b00110111] .scf && reads [0b00111111] .ccf) = true := by decide +kernel

/-- 30_encoding.md rules R95, R96: the hole of block 01 is HALT. -/
theorem test_decode_block1_block2 :
    (reads [0b01110110] .halt && reads [0b01110101] (.ldR8R8 .hlInd .l) && reads [0b01000001] (.ldR8R8 .b .c) &&
      reads [0b10000110] (.addAR8 .hlInd) && reads [0b10001001] (.adcAR8 .c) && reads [0b10010011] (.subAR8 .e) &&
      reads [0b10011100] (.sbcAR8 .h) && reads [0b10100101] (.andAR8 .l) && reads [0b10101111] (.xorAR8 .a) &&
      reads [0b10110111] (.orAR8 .a) && reads [0b10111000] (.cpAR8 .b)) = true := by decide +kernel

/-- 30_encoding.md rule R97: control flow and the stack. -/
theorem test_decode_block3_flow :
    (reads [0b11011000] (.retCc .c) && reads [0b11110001] (.popR16Stk .af) &&
      reads [0b11000010, 0x00, 0x80] (.jpCcA16 .nz 0x8000) && reads [0b11000011, 0x00, 0x80] (.jpA16 0x8000) &&
      reads [0b11001100, 0x34, 0x12] (.callCcA16 .z 0x1234) && reads [0b11001101, 0x34, 0x12] (.callA16 0x1234) &&
      reads [0b11010101] (.pushR16Stk .de) && reads [0b11101111] (.rst 5) && reads [0b11001001] .ret &&
      reads [0b11011001] .reti && reads [0b11101001] .jpHl && reads [0b11111001] .ldSpHl) = true := by decide +kernel

/-- 30_encoding.md rule R97: immediates, the I/O page, and the interrupt flag. -/
theorem test_decode_block3_rest :
    (reads [0b11000110, 0x01] (.addAN8 0x01) && reads [0b11001110, 0x02] (.adcAN8 0x02) &&
      reads [0b11010110, 0x03] (.subAN8 0x03) && reads [0b11011110, 0x04] (.sbcAN8 0x04) &&
      reads [0b11100110, 0x05] (.andAN8 0x05) && reads [0b11101110, 0x06] (.xorAN8 0x06) &&
      reads [0b11110110, 0x07] (.orAN8 0x07) && reads [0b11111110, 0x08] (.cpAN8 0x08) &&
      reads [0b11100000, 0x80] (.ldhA8A 0x80) && reads [0b11110000, 0x81] (.ldhAA8 0x81) &&
      reads [0b11100010] .ldhCA && reads [0b11110010] .ldhAC && reads [0b11101000, 0x80] (.addSpE8 0x80) &&
      reads [0b11111000, 0x7F] (.ldHlSpE8 0x7F) && reads [0b11101010, 0x00, 0xC1] (.ldA16A 0xC100) &&
      reads [0b11111010, 0x00, 0xC1] (.ldAA16 0xC100) && reads [0b11110011] .di && reads [0b11111011] .ei) = true := by
  decide +kernel

/-- 30_encoding.md rules R105, R106; the second byte 0xCB is SET 1,E, not a second prefix. -/
theorem test_decode_prefixed :
    (reads [0b11001011, 0b00000000] (.rlcR8 .b) && reads [0b11001011, 0b00001001] (.rrcR8 .c) &&
      reads [0b11001011, 0b00010010] (.rlR8 .d) && reads [0b11001011, 0b00011011] (.rrR8 .e) &&
      reads [0b11001011, 0b00100100] (.slaR8 .h) && reads [0b11001011, 0b00101101] (.sraR8 .l) &&
      reads [0b11001011, 0b00110110] (.swapR8 .hlInd) && reads [0b11001011, 0b00111111] (.srlR8 .a) &&
      reads [0b11001011, 0b01111111] (.bitBR8 7 .a) && reads [0b11001011, 0b10011110] (.resBR8 3 .hlInd) &&
      reads [0b11001011, 0b11001011] (.setBR8 1 .e)) = true := by decide +kernel

/-- A PREFIX record is encoded as the prefix byte and its second byte, and decoded as the entry they select. -/
theorem test_decode_prefix_record :
    encode (.cbPrefix 0x37) = [0b11001011, 0x37] ∧ decodeTableWord 8 0xCB = some (.rlcR8 .b) := by decide +kernel

/-- 30_encoding.md rules R101, R109: the eleven illegal bytes. -/
theorem test_decode_illegal :
    (illegal 0b11010011 .illegalD3 && illegal 0b11011011 .illegalDB && illegal 0b11011101 .illegalDD &&
      illegal 0b11100011 .illegalE3 && illegal 0b11100100 .illegalE4 && illegal 0b11101011 .illegalEB &&
      illegal 0b11101100 .illegalEC && illegal 0b11101101 .illegalED && illegal 0b11110100 .illegalF4 &&
      illegal 0b11111100 .illegalFC && illegal 0b11111101 .illegalFD) = true := by decide +kernel

/-! ### Helpers for single steps -/

/-- The state with runs of bytes stored. -/
def load (cells : List (Word × List Byte)) (s : State) : State :=
  cells.foldl (fun s c => (c.2.foldl (fun p b => (p.1.writeByte p.2 b, p.2 + 1)) (s, c.1)).1) s

/-- One step from the loaded state completes in a state that passes the check. -/
def reaches (cells : List (Word × List Byte)) (s : State) (check : State → Bool) : Bool :=
  match step (load cells s) with
  | .next t => check t
  | .fault _ => false
  | .refused _ => false

/-- One step from the loaded state faults, leaving a state that passes the check. -/
def stops (cells : List (Word × List Byte)) (s : State) (check : State → Bool) : Bool :=
  match step (load cells s) with
  | .next _ => false
  | .fault r => check r.after
  | .refused _ => false

/-! ### One step: 8-bit arithmetic and logic (spec/95_test_vectors.md part 2, by vector name) -/

theorem test_v_add_1 :
    reaches [(0x0100, [0x80])] { State.reset with pc := 0x0100, a := 0x3A, b := 0xC6 }
      (fun t => t.a == 0x00 && t.f == 0xB0 && t.pc == 0x0101) = true := by decide +kernel

theorem test_v_add_4 :
    reaches [(0x0100, [0xC6, 0x00])] { State.reset with pc := 0x0100, f := 0xF0 }
      (fun t => t.f == 0x80 && t.pc == 0x0102) = true := by decide +kernel

theorem test_v_adc_1 :
    reaches [(0x0100, [0x89])] { State.reset with pc := 0x0100, a := 0xE1, c := 0x0F, f := 0x10 }
      (fun t => t.a == 0xF1 && t.f == 0x20 && t.pc == 0x0101) = true := by decide +kernel

theorem test_v_adc_2 :
    reaches [(0x0100, [0xCE, 0xFF])] { State.reset with pc := 0x0100, f := 0x10 }
      (fun t => t.f == 0xB0 && t.pc == 0x0102) = true := by decide +kernel

theorem test_v_sub_2 :
    reaches [(0x0100, [0x97])] { State.reset with pc := 0x0100, a := 0x5C, f := 0x10 }
      (fun t => t.a == 0x00 && t.f == 0xC0 && t.pc == 0x0101) = true := by decide +kernel

theorem test_v_sub_1 :
    reaches [(0x0100, [0xD6, 0x01])] { State.reset with pc := 0x0100 }
      (fun t => t.a == 0xFF && t.f == 0x70 && t.pc == 0x0102) = true := by decide +kernel

theorem test_v_sbc_1 :
    reaches [(0x0100, [0x9C])] { State.reset with pc := 0x0100, a := 0x3B, h := 0x2A, f := 0x10 }
      (fun t => t.a == 0x10 && t.f == 0x40 && t.pc == 0x0101) = true := by decide +kernel

theorem test_v_sbc_2 :
    reaches [(0x0100, [0xDE, 0xFF])] { State.reset with pc := 0x0100, f := 0x10 }
      (fun t => t.f == 0xF0 && t.pc == 0x0102) = true := by decide +kernel

theorem test_v_and_1 :
    reaches [(0x0100, [0xA5])] { State.reset with pc := 0x0100, a := 0x5A, l := 0x3F, f := 0x50 }
      (fun t => t.a == 0x1A && t.f == 0x20 && t.pc == 0x0101) = true := by decide +kernel

theorem test_v_and_2 :
    reaches [(0x0100, [0xE6, 0x00])] { State.reset with pc := 0x0100, a := 0xFF, f := 0x10 }
      (fun t => t.a == 0x00 && t.f == 0xA0 && t.pc == 0x0102) = true := by decide +kernel

theorem test_v_xor_1 :
    reaches [(0x0100, [0xAF])] { State.reset with pc := 0x0100, a := 0xFF, f := 0xF0 }
      (fun t => t.a == 0x00 && t.f == 0x80 && t.pc == 0x0101) = true := by decide +kernel

theorem test_v_xor_2 :
    reaches [(0x0100, [0xEE, 0x0F])] { State.reset with pc := 0x0100, a := 0xFF, f := 0xF0 }
      (fun t => t.a == 0xF0 && t.f == 0x00 && t.pc == 0x0102) = true := by decide +kernel

theorem test_v_or_1 :
    reaches [(0x0100, [0xB7])] { State.reset with pc := 0x0100, f := 0x70 }
      (fun t => t.f == 0x80 && t.pc == 0x0101) = true := by decide +kernel

theorem test_v_or_2 :
    reaches [(0x0100, [0xF6, 0x03])] { State.reset with pc := 0x0100, a := 0x5A, f := 0xF0 }
      (fun t => t.a == 0x5B && t.f == 0x00 && t.pc == 0x0102) = true := by decide +kernel

theorem test_v_cp_2 :
    reaches [(0x0100, [0xB8])] { State.reset with pc := 0x0100, a := 0x3C, b := 0x40 }
      (fun t => t.f == 0x50 && t.pc == 0x0101) = true := by decide +kernel

theorem test_v_cp_1 :
    reaches [(0x0100, [0xFE, 0x3C])] { State.reset with pc := 0x0100, a := 0x3C }
      (fun t => t.f == 0xC0 && t.pc == 0x0102) = true := by decide +kernel

theorem test_v_inc_1 :
    reaches [(0x0100, [0x3C])] { State.reset with pc := 0x0100, a := 0x0F, f := 0x10 }
      (fun t => t.a == 0x10 && t.f == 0x30 && t.pc == 0x0101) = true := by decide +kernel

theorem test_v_inc_4 :
    reaches [(0x0100, [0x34]), (0xC000, [0x50])] { State.reset with pc := 0x0100, h := 0xC0, f := 0xC0 }
      (fun t => t.f == 0x00 && t.pc == 0x0101 && t.readByte 0xC000 == 0x51) = true := by decide +kernel

theorem test_v_dec_1 :
    reaches [(0x0100, [0x05])] { State.reset with pc := 0x0100, b := 0x01, f := 0x10 }
      (fun t => t.f == 0xD0 && t.b == 0x00 && t.pc == 0x0101) = true := by decide +kernel

theorem test_v_dec_3 :
    reaches [(0x0100, [0x35]), (0xC000, [0x10])] { State.reset with pc := 0x0100, h := 0xC0 }
      (fun t => t.f == 0x60 && t.pc == 0x0101 && t.readByte 0xC000 == 0x0F) = true := by decide +kernel

theorem test_v_daa_1 :
    reaches [(0x0100, [0x27])] { State.reset with pc := 0x0100, a := 0x7D }
      (fun t => t.a == 0x83 && t.f == 0x00 && t.pc == 0x0101) = true := by decide +kernel

theorem test_v_daa_2 :
    reaches [(0x0100, [0x27])] { State.reset with pc := 0x0100, a := 0x32, f := 0x30 }
      (fun t => t.a == 0x98 && t.f == 0x10 && t.pc == 0x0101) = true := by decide +kernel

theorem test_v_cpl_1 :
    reaches [(0x0100, [0x2F])] { State.reset with pc := 0x0100, a := 0x35, f := 0x90 }
      (fun t => t.a == 0xCA && t.f == 0xF0 && t.pc == 0x0101) = true := by decide +kernel

theorem test_v_scf_1 :
    reaches [(0x0100, [0x37])] { State.reset with pc := 0x0100, f := 0xE0 }
      (fun t => t.f == 0x90 && t.pc == 0x0101) = true := by decide +kernel

theorem test_v_ccf_1 :
    reaches [(0x0100, [0x3F])] { State.reset with pc := 0x0100, f := 0xF0 }
      (fun t => t.f == 0x80 && t.pc == 0x0101) = true := by decide +kernel

/-! ### One step: 16-bit arithmetic (spec/95_test_vectors.md part 2, by vector name) -/

theorem test_v_addhl_1 :
    reaches [(0x0100, [0x09])] { State.reset with pc := 0x0100, h := 0x8A, l := 0x23, b := 0x06, c := 0x05, f :=
        0x80 }
      (fun t => t.f == 0xA0 && t.h == 0x90 && t.l == 0x28 && t.pc == 0x0101) = true := by decide +kernel

theorem test_v_addhl_2 :
    reaches [(0x0100, [0x29])] { State.reset with pc := 0x0100, h := 0x8A, l := 0x23 }
      (fun t => t.f == 0x30 && t.h == 0x14 && t.l == 0x46 && t.pc == 0x0101) = true := by decide +kernel

theorem test_v_inc16_1 :
    reaches [(0x0100, [0x13])] { State.reset with pc := 0x0100, d := 0xFF, e := 0xFF, f := 0xF0 }
      (fun t => t.f == 0xF0 && t.d == 0x00 && t.e == 0x00 && t.pc == 0x0101) = true := by decide +kernel

theorem test_v_dec16_1 :
    reaches [(0x0100, [0x0B])] { State.reset with pc := 0x0100 }
      (fun t => t.f == 0x00 && t.b == 0xFF && t.c == 0xFF && t.pc == 0x0101) = true := by decide +kernel

theorem test_v_addsp_1 :
    reaches [(0x0100, [0xE8, 0x02])] { State.reset with pc := 0x0100, sp := 0xFFF8, f := 0xF0 }
      (fun t => t.f == 0x00 && t.sp == 0xFFFA && t.pc == 0x0102) = true := by decide +kernel

theorem test_v_addsp_2 :
    reaches [(0x0100, [0xE8, 0xFF])] { State.reset with pc := 0x0100 }
      (fun t => t.f == 0x00 && t.sp == 0xFFFF && t.pc == 0x0102) = true := by decide +kernel

/-! ### One step: Rotates, shifts and bits (spec/95_test_vectors.md part 2, by vector name) -/

theorem test_v_rlca_1 :
    reaches [(0x0100, [0x07])] { State.reset with pc := 0x0100, a := 0x85, f := 0xE0 }
      (fun t => t.a == 0x0B && t.f == 0x10 && t.pc == 0x0101) = true := by decide +kernel

theorem test_v_rrca_1 :
    reaches [(0x0100, [0x0F])] { State.reset with pc := 0x0100, a := 0x3B }
      (fun t => t.a == 0x9D && t.f == 0x10 && t.pc == 0x0101) = true := by decide +kernel

theorem test_v_rla_1 :
    reaches [(0x0100, [0x17])] { State.reset with pc := 0x0100, a := 0x95, f := 0x10 }
      (fun t => t.a == 0x2B && t.f == 0x10 && t.pc == 0x0101) = true := by decide +kernel

theorem test_v_rra_1 :
    reaches [(0x0100, [0x1F])] { State.reset with pc := 0x0100, a := 0x81 }
      (fun t => t.a == 0x40 && t.f == 0x10 && t.pc == 0x0101) = true := by decide +kernel

theorem test_v_rlc_1 :
    reaches [(0x0100, [0xCB, 0x00])] { State.reset with pc := 0x0100, b := 0x85 }
      (fun t => t.f == 0x10 && t.b == 0x0B && t.pc == 0x0102) = true := by decide +kernel

theorem test_v_rrc_1 :
    reaches [(0x0100, [0xCB, 0x09])] { State.reset with pc := 0x0100, c := 0x01 }
      (fun t => t.f == 0x10 && t.c == 0x80 && t.pc == 0x0102) = true := by decide +kernel

theorem test_v_rl_1 :
    reaches [(0x0100, [0xCB, 0x15])] { State.reset with pc := 0x0100, l := 0x80 }
      (fun t => t.f == 0x90 && t.l == 0x00 && t.pc == 0x0102) = true := by decide +kernel

theorem test_v_rl_2 :
    reaches [(0x0100, [0xCB, 0x16]), (0xC000, [0x11])] { State.reset with pc := 0x0100, h := 0xC0, f := 0x10 }
      (fun t => t.f == 0x00 && t.pc == 0x0102 && t.readByte 0xC000 == 0x23) = true := by decide +kernel

theorem test_v_rr_1 :
    reaches [(0x0100, [0xCB, 0x1F])] { State.reset with pc := 0x0100, a := 0x01 }
      (fun t => t.a == 0x00 && t.f == 0x90 && t.pc == 0x0102) = true := by decide +kernel

theorem test_v_sla_1 :
    reaches [(0x0100, [0xCB, 0x22])] { State.reset with pc := 0x0100, d := 0x80 }
      (fun t => t.f == 0x90 && t.d == 0x00 && t.pc == 0x0102) = true := by decide +kernel

theorem test_v_sra_1 :
    reaches [(0x0100, [0xCB, 0x2F])] { State.reset with pc := 0x0100, a := 0x8A }
      (fun t => t.a == 0xC5 && t.f == 0x00 && t.pc == 0x0102) = true := by decide +kernel

theorem test_v_swap_1 :
    reaches [(0x0100, [0xCB, 0x37])] { State.reset with pc := 0x0100, a := 0xF1, f := 0xF0 }
      (fun t => t.a == 0x1F && t.f == 0x00 && t.pc == 0x0102) = true := by decide +kernel

theorem test_v_srl_1 :
    reaches [(0x0100, [0xCB, 0x3F])] { State.reset with pc := 0x0100, a := 0x01 }
      (fun t => t.a == 0x00 && t.f == 0x90 && t.pc == 0x0102) = true := by decide +kernel

theorem test_v_bit_1 :
    reaches [(0x0100, [0xCB, 0x7F])] { State.reset with pc := 0x0100, a := 0x80, f := 0x50 }
      (fun t => t.f == 0x30 && t.pc == 0x0102) = true := by decide +kernel

theorem test_v_bit_2 :
    reaches [(0x0100, [0xCB, 0x65])] { State.reset with pc := 0x0100, l := 0xEF }
      (fun t => t.f == 0xA0 && t.pc == 0x0102) = true := by decide +kernel

theorem test_v_res_1 :
    reaches [(0x0100, [0xCB, 0xBF])] { State.reset with pc := 0x0100, a := 0x80, f := 0xF0 }
      (fun t => t.a == 0x00 && t.f == 0xF0 && t.pc == 0x0102) = true := by decide +kernel

theorem test_v_set_1 :
    reaches [(0x0100, [0xCB, 0xDF])] { State.reset with pc := 0x0100, a := 0x80 }
      (fun t => t.a == 0x88 && t.f == 0x00 && t.pc == 0x0102) = true := by decide +kernel

/-! ### One step: Control flow (spec/95_test_vectors.md part 2, by vector name) -/

theorem test_v_jp_1 :
    reaches [(0x0100, [0xC3, 0x00, 0x80])] { State.reset with pc := 0x0100 }
      (fun t => t.f == 0x00 && t.pc == 0x8000) = true := by decide +kernel

theorem test_v_jp_2 :
    reaches [(0x0100, [0xC2, 0x00, 0x80])] { State.reset with pc := 0x0100, f := 0x80 }
      (fun t => t.f == 0x80 && t.pc == 0x0103) = true := by decide +kernel

theorem test_v_jp_4 :
    reaches [(0x0100, [0xCA, 0x00, 0x80])] { State.reset with pc := 0x0100, f := 0x80 }
      (fun t => t.f == 0x80 && t.pc == 0x8000) = true := by decide +kernel

theorem test_v_jp_7 :
    reaches [(0x0100, [0xE9])] { State.reset with pc := 0x0100, h := 0x80 }
      (fun t => t.f == 0x00 && t.pc == 0x8000) = true := by decide +kernel

theorem test_v_jr_1 :
    reaches [(0x0100, [0x18, 0x05])] { State.reset with pc := 0x0100 }
      (fun t => t.f == 0x00 && t.pc == 0x0107) = true := by decide +kernel

theorem test_v_jr_6 :
    reaches [(0x0100, [0x28, 0x05])] { State.reset with pc := 0x0100 }
      (fun t => t.f == 0x00 && t.pc == 0x0102) = true := by decide +kernel

theorem test_v_jr_7 :
    reaches [(0x0100, [0x30, 0xFD])] { State.reset with pc := 0x0100 }
      (fun t => t.f == 0x00 && t.pc == 0x00FF) = true := by decide +kernel

theorem test_v_call_1 :
    reaches [(0x8000, [0xCD, 0x34, 0x12])] { State.reset with pc := 0x8000, sp := 0xFFFE }
      (fun t => t.f == 0x00 && t.sp == 0xFFFC && t.pc == 0x1234 && t.readByte 0xFFFC == 0x03 &&
        t.readByte 0xFFFD == 0x80) = true := by decide +kernel

theorem test_v_call_4 :
    reaches [(0x0100, [0xC4, 0x34, 0x12])] { State.reset with pc := 0x0100, sp := 0xFFFE, f := 0x80 }
      (fun t => t.f == 0x80 && t.pc == 0x0103) = true := by decide +kernel

theorem test_v_call_5 :
    reaches [(0x0100, [0xCC, 0x34, 0x12])] { State.reset with pc := 0x0100, sp := 0xFFFE, f := 0x80 }
      (fun t => t.f == 0x80 && t.sp == 0xFFFC && t.pc == 0x1234 && t.readByte 0xFFFC == 0x03 &&
        t.readByte 0xFFFD == 0x01) = true := by decide +kernel

theorem test_v_ret_1 :
    reaches [(0x0100, [0xC9]), (0xFFFC, [0x03]), (0xFFFD, [0x80])] { State.reset with pc := 0x0100, sp := 0xFFFC }
      (fun t => t.f == 0x00 && t.sp == 0xFFFE && t.pc == 0x8003) = true := by decide +kernel

theorem test_v_ret_2 :
    reaches [(0x0100, [0xD0]), (0xFFFC, [0x03]), (0xFFFD, [0x80])] { State.reset with pc := 0x0100, sp := 0xFFFC, f
        := 0x10 }
      (fun t => t.f == 0x10 && t.pc == 0x0101) = true := by decide +kernel

theorem test_v_ret_3 :
    reaches [(0x0100, [0xD8]), (0xFFFC, [0x03]), (0xFFFD, [0x80])] { State.reset with pc := 0x0100, sp := 0xFFFC, f
        := 0x10 }
      (fun t => t.f == 0x10 && t.sp == 0xFFFE && t.pc == 0x8003) = true := by decide +kernel

theorem test_v_reti_1 :
    reaches [(0x0100, [0xD9]), (0xFFFC, [0x03]), (0xFFFD, [0x80])] { State.reset with pc := 0x0100, sp := 0xFFFC }
      (fun t => t.f == 0x00 && t.sp == 0xFFFE && t.pc == 0x8003 && t.ime) = true := by decide +kernel

theorem test_v_rst_1 :
    reaches [(0x8000, [0xEF])] { State.reset with pc := 0x8000, sp := 0xFFFE }
      (fun t => t.f == 0x00 && t.sp == 0xFFFC && t.pc == 0x0028 && t.readByte 0xFFFC == 0x01 &&
        t.readByte 0xFFFD == 0x80) = true := by decide +kernel

theorem test_v_rst_2 :
    reaches [(0x0150, [0xC7])] { State.reset with pc := 0x0150, sp := 0xD000 }
      (fun t => t.f == 0x00 && t.sp == 0xCFFE && t.pc == 0x0000 && t.readByte 0xCFFE == 0x51 &&
        t.readByte 0xCFFF == 0x01) = true := by decide +kernel

/-! ### One step: Stack (spec/95_test_vectors.md part 2, by vector name) -/

theorem test_v_push_1 :
    reaches [(0x0100, [0xC5])] { State.reset with pc := 0x0100, b := 0x12, c := 0x34, sp := 0xFFFE }
      (fun t => t.f == 0x00 && t.sp == 0xFFFC && t.pc == 0x0101 && t.readByte 0xFFFC == 0x34 &&
        t.readByte 0xFFFD == 0x12) = true := by decide +kernel

theorem test_v_push_2 :
    reaches [(0x0100, [0xF5])] { State.reset with pc := 0x0100, a := 0x12, f := 0xB0, sp := 0xD000 }
      (fun t => t.f == 0xB0 && t.sp == 0xCFFE && t.pc == 0x0101 && t.readByte 0xCFFE == 0xB0 &&
        t.readByte 0xCFFF == 0x12) = true := by decide +kernel

theorem test_v_pop_1 :
    reaches [(0x0100, [0xD1]), (0xFFFC, [0x5F]), (0xFFFD, [0x3C])] { State.reset with pc := 0x0100, sp := 0xFFFC }
      (fun t => t.f == 0x00 && t.d == 0x3C && t.e == 0x5F && t.sp == 0xFFFE && t.pc == 0x0101) = true := by
  decide +kernel

theorem test_v_pop_2 :
    reaches [(0x0100, [0xF1]), (0xFFFC, [0xFF]), (0xFFFD, [0xAB])] { State.reset with pc := 0x0100, sp := 0xFFFC }
      (fun t => t.a == 0xAB && t.f == 0xF0 && t.sp == 0xFFFE && t.pc == 0x0101) = true := by decide +kernel

/-! ### One step: Loads (spec/95_test_vectors.md part 2, by vector name) -/

theorem test_v_ld_1 :
    reaches [(0x0100, [0x41])] { State.reset with pc := 0x0100, c := 0x77 }
      (fun t => t.f == 0x00 && t.b == 0x77 && t.pc == 0x0101) = true := by decide +kernel

theorem test_v_ld_3 :
    reaches [(0x0100, [0x75])] { State.reset with pc := 0x0100, h := 0xC0, l := 0x55 }
      (fun t => t.f == 0x00 && t.pc == 0x0101 && t.readByte 0xC055 == 0x55) = true := by decide +kernel

theorem test_v_ld_6 :
    reaches [(0x0100, [0x3E, 0x42])] { State.reset with pc := 0x0100 }
      (fun t => t.a == 0x42 && t.f == 0x00 && t.pc == 0x0102) = true := by decide +kernel

theorem test_v_ld_8 :
    reaches [(0x0100, [0x31, 0xFE, 0xFF])] { State.reset with pc := 0x0100 }
      (fun t => t.f == 0x00 && t.sp == 0xFFFE && t.pc == 0x0103) = true := by decide +kernel

theorem test_v_ld_11 :
    reaches [(0x0100, [0x02])] { State.reset with pc := 0x0100, b := 0xC1, c := 0x23, a := 0x5A }
      (fun t => t.f == 0x00 && t.pc == 0x0101 && t.readByte 0xC123 == 0x5A) = true := by decide +kernel

theorem test_v_ld_12 :
    reaches [(0x0100, [0x12])] { State.reset with pc := 0x0100, d := 0xC1, e := 0x24, a := 0x5A }
      (fun t => t.f == 0x00 && t.pc == 0x0101 && t.readByte 0xC124 == 0x5A) = true := by decide +kernel

theorem test_v_ld_15 :
    reaches [(0x0100, [0x0A]), (0xC200, [0x77])] { State.reset with pc := 0x0100, b := 0xC2 }
      (fun t => t.a == 0x77 && t.f == 0x00 && t.pc == 0x0101) = true := by decide +kernel

theorem test_v_ld_16 :
    reaches [(0x0100, [0x1A]), (0xC200, [0x77])] { State.reset with pc := 0x0100, d := 0xC2 }
      (fun t => t.a == 0x77 && t.f == 0x00 && t.pc == 0x0101) = true := by decide +kernel

theorem test_v_ld_19 :
    reaches [(0x0100, [0x08, 0x00, 0xC1])] { State.reset with pc := 0x0100, sp := 0xFFF8 }
      (fun t => t.f == 0x00 && t.pc == 0x0103 && t.readByte 0xC100 == 0xF8 && t.readByte 0xC101 == 0xFF) = true := by
  decide +kernel

theorem test_v_ld_21 :
    reaches [(0x0100, [0xEA, 0x00, 0xC1])] { State.reset with pc := 0x0100, a := 0x5A }
      (fun t => t.f == 0x00 && t.pc == 0x0103 && t.readByte 0xC100 == 0x5A) = true := by decide +kernel

theorem test_v_ld_22 :
    reaches [(0x0100, [0xFA, 0x00, 0xC1]), (0xC100, [0x33])] { State.reset with pc := 0x0100 }
      (fun t => t.a == 0x33 && t.f == 0x00 && t.pc == 0x0103) = true := by decide +kernel

theorem test_v_ldh_1 :
    reaches [(0x0100, [0xE0, 0x80])] { State.reset with pc := 0x0100, a := 0x5A }
      (fun t => t.f == 0x00 && t.pc == 0x0102 && t.readByte 0xFF80 == 0x5A) = true := by decide +kernel

theorem test_v_ldh_2 :
    reaches [(0x0100, [0xF0, 0x80]), (0xFF80, [0x44])] { State.reset with pc := 0x0100 }
      (fun t => t.a == 0x44 && t.f == 0x00 && t.pc == 0x0102) = true := by decide +kernel

theorem test_v_ldh_3 :
    reaches [(0x0100, [0xE2])] { State.reset with pc := 0x0100, c := 0xFF, a := 0x5A }
      (fun t => t.f == 0x00 && t.pc == 0x0101 && t.readByte 0xFFFF == 0x5A) = true := by decide +kernel

theorem test_v_ldh_4 :
    reaches [(0x0100, [0xF2]), (0xFF00, [0x44])] { State.reset with pc := 0x0100 }
      (fun t => t.a == 0x44 && t.f == 0x00 && t.pc == 0x0101) = true := by decide +kernel

theorem test_v_ldhl_1 :
    reaches [(0x0100, [0xF8, 0x02])] { State.reset with pc := 0x0100, sp := 0xFFF8, f := 0xF0 }
      (fun t => t.f == 0x00 && t.h == 0xFF && t.l == 0xFA && t.pc == 0x0102) = true := by decide +kernel

theorem test_v_ldhl_2 :
    reaches [(0x0100, [0xF8, 0xFF])] { State.reset with pc := 0x0100 }
      (fun t => t.f == 0x00 && t.h == 0xFF && t.l == 0xFF && t.pc == 0x0102) = true := by decide +kernel

theorem test_v_ldsp_1 :
    reaches [(0x0100, [0xF9])] { State.reset with pc := 0x0100, h := 0xD0, f := 0xF0 }
      (fun t => t.f == 0xF0 && t.sp == 0xD000 && t.pc == 0x0101) = true := by decide +kernel

/-! ### One step: Miscellaneous and the illegal bytes (spec/95_test_vectors.md part 2, by vector name) -/

theorem test_v_nop_1 :
    reaches [(0x0100, [0x00])] { State.reset with pc := 0x0100, f := 0xF0 }
      (fun t => t.f == 0xF0 && t.pc == 0x0101) = true := by decide +kernel

theorem test_v_stop_1 :
    reaches [(0x0100, [0x10, 0x00])] { State.reset with pc := 0x0100 }
      (fun t => t.f == 0x00 && t.pc == 0x0101 && t.lowPower) = true := by decide +kernel

theorem test_v_halt_1 :
    reaches [(0x0100, [0x76])] { State.reset with pc := 0x0100 }
      (fun t => t.f == 0x00 && t.pc == 0x0101 && t.halted) = true := by decide +kernel

theorem test_v_di_1 :
    reaches [(0x0100, [0xF3])] { State.reset with pc := 0x0100, ime := true }
      (fun t => t.f == 0x00 && t.pc == 0x0101 && !t.ime) = true := by decide +kernel

theorem test_v_ei_1 :
    reaches [(0x0100, [0xFB])] { State.reset with pc := 0x0100 }
      (fun t => t.f == 0x00 && t.pc == 0x0101 && t.ime) = true := by decide +kernel

theorem test_v_ill_1 :
    stops [(0x0100, [0xD3])] { State.reset with pc := 0x0100, a := 0x12, f := 0x50, sp := 0xD000 }
      (fun t => t.f == 0x50 && t.pc == 0x0101 && t.fault == some (.illegalOpcode 0xD3 0x0100)) = true := by
  decide +kernel

theorem test_v_ill_2 :
    stops [(0x0100, [0xDB])] { State.reset with pc := 0x0100, a := 0x12, f := 0x50, sp := 0xD000 }
      (fun t => t.f == 0x50 && t.pc == 0x0101 && t.fault == some (.illegalOpcode 0xDB 0x0100)) = true := by
  decide +kernel

theorem test_v_ill_3 :
    stops [(0x0100, [0xDD])] { State.reset with pc := 0x0100, a := 0x12, f := 0x50, sp := 0xD000 }
      (fun t => t.f == 0x50 && t.pc == 0x0101 && t.fault == some (.illegalOpcode 0xDD 0x0100)) = true := by
  decide +kernel

theorem test_v_ill_4 :
    stops [(0x0100, [0xE3])] { State.reset with pc := 0x0100, a := 0x12, f := 0x50, sp := 0xD000 }
      (fun t => t.f == 0x50 && t.pc == 0x0101 && t.fault == some (.illegalOpcode 0xE3 0x0100)) = true := by
  decide +kernel

theorem test_v_ill_5 :
    stops [(0x0100, [0xE4])] { State.reset with pc := 0x0100, a := 0x12, f := 0x50, sp := 0xD000 }
      (fun t => t.f == 0x50 && t.pc == 0x0101 && t.fault == some (.illegalOpcode 0xE4 0x0100)) = true := by
  decide +kernel

theorem test_v_ill_6 :
    stops [(0x0100, [0xEB])] { State.reset with pc := 0x0100, a := 0x12, f := 0x50, sp := 0xD000 }
      (fun t => t.f == 0x50 && t.pc == 0x0101 && t.fault == some (.illegalOpcode 0xEB 0x0100)) = true := by
  decide +kernel

theorem test_v_ill_7 :
    stops [(0x0100, [0xEC])] { State.reset with pc := 0x0100, a := 0x12, f := 0x50, sp := 0xD000 }
      (fun t => t.f == 0x50 && t.pc == 0x0101 && t.fault == some (.illegalOpcode 0xEC 0x0100)) = true := by
  decide +kernel

theorem test_v_ill_8 :
    stops [(0x0100, [0xED])] { State.reset with pc := 0x0100, a := 0x12, f := 0x50, sp := 0xD000 }
      (fun t => t.f == 0x50 && t.pc == 0x0101 && t.fault == some (.illegalOpcode 0xED 0x0100)) = true := by
  decide +kernel

theorem test_v_ill_9 :
    stops [(0x0100, [0xF4])] { State.reset with pc := 0x0100, a := 0x12, f := 0x50, sp := 0xD000 }
      (fun t => t.f == 0x50 && t.pc == 0x0101 && t.fault == some (.illegalOpcode 0xF4 0x0100)) = true := by
  decide +kernel

theorem test_v_ill_10 :
    stops [(0x0100, [0xFC])] { State.reset with pc := 0x0100, a := 0x12, f := 0x50, sp := 0xD000 }
      (fun t => t.f == 0x50 && t.pc == 0x0101 && t.fault == some (.illegalOpcode 0xFC 0x0100)) = true := by
  decide +kernel

theorem test_v_ill_11 :
    stops [(0x0100, [0xFD])] { State.reset with pc := 0x0100, a := 0x12, f := 0x50, sp := 0xD000 }
      (fun t => t.f == 0x50 && t.pc == 0x0101 && t.fault == some (.illegalOpcode 0xFD 0x0100)) = true := by
  decide +kernel

/-! ### PREFIX, the hold, the fault and the ports (46_misc.md rule R245; 95_test_vectors.md, V-HOLD, V-FAULT,
V-EXEC) -/

theorem test_prefix_record :
    (match exec (.cbPrefix 0x37) { State.reset with a := 0xF1, f := 0xF0 } with
      | .next t => t.a == 0x1F && t.f == 0x00
      | _ => false) = true := by decide +kernel

theorem test_v_hold_1 :
    reaches [(0x0101, [0x3C])] { State.reset with pc := 0x0101, halted := true }
      (fun t => t.a == 0x00 && t.pc == 0x0101 && t.halted) = true := by decide +kernel

theorem test_v_hold_2 :
    reaches [(0x0101, [0x3C])] (drive .clearHalted { State.reset with pc := 0x0101, halted := true })
      (fun t => t.a == 0x01 && t.f == 0x00 && t.pc == 0x0102 && !t.halted) = true := by decide +kernel

theorem test_v_fault_1 :
    stops [(0x0101, [0x3C])] { State.reset with pc := 0x0101, a := 0x12, fault := some (.illegalOpcode 0xD3 0x0100) }
      (fun t => t.a == 0x12 && t.pc == 0x0101 && t.fault == some (.illegalOpcode 0xD3 0x0100)) = true := by
  decide +kernel

theorem test_v_exec_1 :
    (match executePort (.callA16 0x0040) { State.reset with pc := 0x1234, sp := 0xD000 } with
      | .next t => t.sp == 0xCFFE && t.readByte 0xCFFE == 0x34 && t.readByte 0xCFFF == 0x12 && t.pc == 0x0040
      | _ => false) = true := by decide +kernel

theorem test_v_exec_2 :
    (match executePort (.incR8 .a) { State.reset with pc := 0x0100, a := 0x0F } with
      | .next t => t.a == 0x10 && t.f == 0x20 && t.pc == 0x0100
      | _ => false) = true := by decide +kernel

theorem test_exec_ill_formed :
    (match executePort (.ldR8R8 .hlInd .hlInd) { State.reset with a := 0x12 } with
      | .fault r => r.after.fault == some (.illegalInstruction (.ldR8R8 .hlInd .hlInd)) && r.after.a == 0x12
      | _ => false) = true := by decide +kernel

/-- The bytes a step fetches may wrap (10_state.md rule R28; V-LD-10). -/
theorem test_accesses_wrap :
    stepAccesses (load [(0xFFFF, [0xC4, 0x34, 0x12])] { State.reset with pc := 0xFFFF, sp := 0x0001 }) =
      [.readByte 0xFFFF, .readWord 0x0000, .writeWord 0xFFFF] := by decide +kernel

/-- A table word placed at PC runs: `ADD A,n8` with its operand byte in bits 15 to 8, and `SWAP A`. -/
theorem test_placed_words :
    ((match step (State.reset.withFetchWord 16 0x05C6) with
      | .next t => t.a == 0x05 && t.pc == 0x0002
      | _ => false) &&
      match step (({ State.reset with a := 0xF1 }).withFetchWord 16 0xCB37) with
      | .next t => t.a == 0x1F && t.pc == 0x0002
      | _ => false) = true := by decide +kernel

/-! ### Witnesses: the hypotheses of the statements can be met -/

/-- The outcome is the completion in this state. -/
def nextIs (o : Host.Outcome State Fault Refusal) (t : State) : Bool :=
  match o with
  | .next u => decide (u = t)
  | .fault _ => false
  | .refused _ => false

theorem eq_of_nextIs {o : Host.Outcome State Fault Refusal} {t : State} (h : nextIs o t = true) : o = .next t := by
  unfold nextIs at h
  split at h
  · rw [of_decide_eq_true h]
  · cases h
  · cases h

/-- A state with every register and flag distinct, for the witnesses. -/
def sample : State :=
  { State.reset with
    a := 0x99, f := 0x90, b := 0x11, c := 0x22, d := 0x33, e := 0x44, h := 0xC0, l := 0x10, sp := 0xFFFE, pc := 0xC000
    mem := [(0xC000, 0xEA), (0xC001, 0x03), (0xC002, 0xC0), (0xC010, 0x0F)] }

/-- The sample with PC at an illegal byte. -/
def sampleIllegal : State := { sample with mem := [(0xC000, 0xFD)] }

/-- The sample, held by HALT. -/
def sampleHalted : State := { sample with halted := true }

/-- The sample, held by STOP. -/
def sampleStopped : State := { sample with lowPower := true }

/-- The sample, faulted. -/
def sampleFaulted : State := { sample with fault := some (.illegalOpcode 0xD3 0xBFFF) }

/-- DaaKeepsDecimal: A holds the digits 9 and 9. -/
theorem witness_daa_digits : sample.a = BitVec.ofNat 8 (16 * (99 / 10) + 99 % 10) := by decide

/-- JpResults, JrResults, CallResults, RetResults, ConditionTable: each condition is taken in one of the two
states and not taken in the other. -/
theorem witness_conditions :
    (cond .z sample = true ∧ cond .nz sample = false ∧ cond .c sample = true ∧ cond .nc sample = false) ∧
      let t := sample.setF 0x60
      cond .z t = false ∧ cond .nz t = true ∧ cond .c t = false ∧ cond .nc t = true := by decide

/-- JrResults and SpPlusOffsetResults at the two offsets where the sign clause changes: +127 and -128. -/
theorem witness_offsets :
    sext16 0x7F = 0x007F ∧ sext16 0x80 = 0xFF80 ∧ spPlus 0xFFFE 0x7F = 0x007D ∧ spPlus 0x0000 0x80 = 0xFF80 := by
  decide

/-- StackRoundTrips: each of the three premises. -/
theorem witness_stack :
    exec (.pushR16Stk .bc) sample = .next (sample.push16 0x1122) ∧
      exec (.callA16 0x1234) sample = .next ((sample.push16 0xC000).setPc 0x1234) ∧
      exec (.rst 7) sample = .next ((sample.push16 0xC000).setPc 0x0038) :=
  ⟨eq_of_nextIs (by decide +kernel), eq_of_nextIs (by decide +kernel), eq_of_nextIs (by decide +kernel)⟩

/-- R8OperandTable and LdR8R8Result: not both `[HL]`, at the two forms next to the hole; and a load of a register
from itself. -/
theorem witness_loads :
    ¬((5 : BitVec 3) = 6 ∧ (6 : BitVec 3) = 6) ∧ ¬(R8.hlInd = R8.hlInd ∧ R8.a = R8.hlInd) ∧
      ¬(R8.a = R8.hlInd ∧ R8.hlInd = R8.hlInd) ∧ R8.h = R8.h := by decide

/-- IllegalBytesFault, OnlyTheSpecsFaults, PcAfterEveryStep: a running core at an illegal byte, an illegal tag,
and an ill-formed record. -/
theorem witness_illegal :
    sampleIllegal.Running ∧ sampleIllegal.readByte sampleIllegal.pc ∈ illegalBytes ∧
      Instr.illegalFD.illegalByte? = some 0xFD ∧ (Instr.cbPrefix 0x00).wellFormed = false := by decide +kernel

/-- StepRunsDecoded, PcAfterEveryStep, OnlyTheSpecsFaults: a running core whose bytes decode to a well-formed
record that takes all three. -/
theorem witness_decoded :
    sample.Running ∧
      sample.readByte sample.pc = 0xEA ∧ sample.readByte (sample.pc + 1) = 0x03 ∧
      sample.readByte (sample.pc + 2) = 0xC0 ∧ decode [0xEA, 0x03, 0xC0] = .ok (.ldA16A 0xC003, []) ∧
      (Instr.ldA16A 0xC003).wellFormed = true ∧
      step sample = .next ((sample.setPc 0xC003).writeByte 0xC003 0x99) :=
  ⟨⟨rfl, rfl, rfl⟩, by decide +kernel, by decide +kernel, by decide +kernel, rfl, rfl,
    eq_of_nextIs (by decide +kernel)⟩

/-- StoreSeenByNextFetch: the fetched record stores at the next instruction's address. -/
theorem witness_self_modifying : sample.Running ∧ sample.fetched = (.ldA16A (sample.pc + 3), 3) := by decide +kernel

/-- HoldChangesNothing: halted, and stopped. -/
theorem witness_held :
    sampleHalted.fault = none ∧ sampleHalted.halted = true ∧ sampleStopped.fault = none ∧
      sampleStopped.lowPower = true := by decide

/-- FaultIsSticky, ImeIsReadByNothing, StepKeepsInv: a faulted core that meets the invariant, and a driver
action that is no reset. -/
theorem witness_faulted :
    sampleFaulted.fault = some (.illegalOpcode 0xD3 0xBFFF) ∧ sampleFaulted.Inv ∧
      DriverAction.clearHalted ≠ .reset :=
  ⟨rfl, by decide +kernel, by decide⟩

/-- ResetValues: the state after a driver's reset. -/
theorem witness_reset : drive .reset sampleFaulted = { State.reset with mem := sampleFaulted.mem } := by decide +kernel

/-- DecodeOfEncode and EncodeOfDecode: a well-formed record with both operands at their last value, and bytes
that decode with bytes left over. -/
theorem witness_round_trip :
    (Instr.setBR8 7 .a).wellFormed = true ∧ encode (.setBR8 7 .a) = [0xCB, 0xFF] ∧
      decode [0xCB, 0xFF, 0x00] = .ok (.setBR8 7 .a, [0x00]) := ⟨rfl, rfl, rfl⟩

/-- RegisterFrame, FlagFrame, ControlFlagFrame, StoresOnlyWhereListed, ReadsOnlyWhereListed: an instruction that
completes, with a register, a flag and a byte outside what its rows list, and another memory that agrees at the
one byte it reads. -/
theorem witness_frames :
    exec (.incR8 .hlInd) sample = .next ((sample.writeByte 0xC010 0x10).setF 0x30) ∧
      Reg8.b ∉ (Instr.incR8 .hlInd).destRegs ∧ (Instr.incR8 .hlInd).writesSp = false ∧
      Flag.c ∉ (Instr.incR8 .hlInd).flagsWritten ∧ 0xC00F#16 ∉ (Instr.incR8 .hlInd).storedTo sample ∧
      ∀ x ∈ (Instr.incR8 .hlInd).readsFrom sample, Memory.read [(0xC010, 0x0F)] x.toNat = sample.readByte x :=
  ⟨eq_of_nextIs (by decide +kernel), by decide +kernel, rfl, by decide +kernel, by decide +kernel,
    fun x hx => by
      rw [show (Instr.incR8 .hlInd).readsFrom sample = [0xC010] by decide +kernel, List.mem_singleton] at hx
      rw [hx]
      decide +kernel⟩

/-- ControlFlagFrame: each of the instructions that write a control flag, from the opposite value. -/
theorem witness_control_flags :
    exec .di { sample with ime := true } = .next sample ∧ exec .ei sample = .next { sample with ime := true } ∧
      exec .halt sample = .next sampleHalted ∧ exec .stop sample = .next sampleStopped :=
  ⟨eq_of_nextIs (by decide +kernel), eq_of_nextIs (by decide +kernel), eq_of_nextIs (by decide +kernel),
    eq_of_nextIs (by decide +kernel)⟩

/-- ImeIsReadByNothing: a step that completes and one that faults. -/
theorem witness_ime :
    (match step { sample with ime := true } with | .next t => t.ime | _ => false) = true ∧
      (match step { sampleIllegal with ime := true } with | .fault r => r.after.ime | _ => false) = true := by
  decide +kernel

/-- ResetMeetsInv, StepKeepsInv, DriverKeepsInv: a memory in canonical form, and a state that meets the
invariant and is not the reset state. -/
theorem witness_inv : Memory.wf sample.mem = true ∧ sample.Inv ∧ sample ≠ State.reset := by decide +kernel

/-- ByteReadAfterWrite and MixedWidthAccess: the byte written, its neighbour, and a word across the top. -/
theorem witness_memory :
    (sample.writeByte 0xFFFF 0x00).readByte 0xFFFF = 0x00 ∧ (sample.writeByte 0xC00F 0x01).readByte 0xC010 = 0x0F ∧
      (sample.writeWord 0xFFFF 0x1234).readByte 0x0000 = 0x12 := by decide +kernel

/-- FlagRegister: two different flags. -/
theorem witness_flags : Flag.z ≠ Flag.c ∧ (sample.putFlag .z false).f = 0x10 := by decide

/-! ### The three outcomes, the ends of a run, and a bus with side effects -/

/-- A held core answers `Held`, a faulted one its fault, whatever its hold flags are (60_exceptions.md rules R259,
R264). -/
theorem test_outcomes :
    stepOutcome sampleHalted = .held ∧ executeOutcome .nop sampleStopped = .held ∧
      stepOutcome sampleIllegal = .fault (.illegalOpcode 0xFD 0xC000)
        { sampleIllegal with pc := 0xC001, fault := some (.illegalOpcode 0xFD 0xC000) } ∧
      stepOutcome { sampleFaulted with halted := true } =
        .fault (.illegalOpcode 0xD3 0xBFFF) { sampleFaulted with halted := true } := by decide +kernel

/-- A run ends by its run state: a faulted state is no normal end even where HALT holds it too (60_exceptions.md
rules R259, R266), and both hold flags end it `stopped` (log entry 12). -/
theorem test_run_ends :
    runFor 3 sampleHalted = .finished sampleHalted ∧ runFor 3 sampleStopped = .stopped sampleStopped ∧
      runFor 3 { sampleFaulted with halted := true } =
        .faulted (.illegalOpcode 0xD3 0xBFFF { sampleFaulted with halted := true }) ∧
      ({ sampleHalted with lowPower := true }).runState = .stopped ∧
      runFor 3 { sampleHalted with lowPower := true } = .stopped { sampleHalted with lowPower := true } := by
  decide +kernel

/-- A bus that logs its accesses, newest first, and answers each byte read with the same byte. -/
def loggingBus (v : Byte) : Bus (List Access) where
  readByte addr log := (v, .readByte addr :: log)
  readWord addr log := (mkWord v v, .readWord addr :: log)
  writeByte addr _ log := .writeByte addr :: log
  writeWord addr _ log := .writeWord addr :: log

/-- INC [HL] on that bus: the byte it answers is the opcode 0x34 and the operand, and the accesses are the ones
of 20_memory.md rules R59 and R62, once each and in order. -/
theorem test_bus_side_effects :
    stepOn (loggingBus 0x34) sample.bare [] =
      .next ({ sample.bare with pc := 0xC001, f := 0x10 },
        [.writeByte 0xC010, .readByte 0xC010, .readByte 0xC000]) := by decide +kernel

end Sys2Proof.Tests
end

section
/-! PROOFS, the 8-bit arithmetic and logic family. First the layer its statements share with the other
families: an encoding read off the opcode table, F as the byte of its masks, the state an update leaves. Then
what each result function computes in numbers, and the obligations assembled from these. -/

namespace Sys2Proof.Machine

/-! ### An encoding is its row of the opcode table -/

theorem oneByte_of_lookup {op : Byte} {i : Instr} (h : lookup op = .plain i) : OneByte op i := fun b1 b2 => by
  simp only [decodeRow, h]

theorem twoBytes_of_lookup {op : Byte} {k : Byte → Instr} (h : lookup op = .imm8 k) : TwoBytes op k := fun b1 b2 => by
  simp only [decodeRow, h]

/-! ### F and the frame of an update -/

/-- The model packs four bits, the statements sum four masks (10_state.md rule R29). -/
theorem packFlags_eq_flagByte (z n h c : Bool) : packFlags z n h c = flagByte z n h c := by
  revert z n h c; decide

theorem carryIn_eq_toNat (s : State) : carryIn s = s.flagC.toNat := by
  unfold carryIn; cases s.flagC <;> rfl

theorem State.setFlags_setA (s : State) (r : Byte) (z n h c : Bool) :
    (s.setA r).setFlags z n h c = withAF s r z n h c := by
  rw [State.setFlags, State.setF, packFlags_masked, packFlags_eq_flagByte]
  rfl

/-- A flag write alone leaves A as it was. -/
theorem State.setFlags_eq_withAF (s : State) (z n h c : Bool) : s.setFlags z n h c = withAF s s.a z n h c :=
  s.setFlags_setA s.a z n h c

theorem State.reg8_setFlags (s : State) {q : Reg8} (hq : q ≠ .f) (z n h c : Bool) :
    (s.setFlags z n h c).reg8 q = s.reg8 q := by
  cases q
  case f => exact absurd rfl hq
  all_goals rfl

/-- What the read-modify-write instructions leave: a write of the operand and then of the flags keeps
everything else. -/
theorem frameR8_setFlags_writeR8 (r : R8) (v : Byte) (s : State) (z n h c : Bool) :
    FrameR8 r s ((writeR8 r v s).setFlags z n h c) := by
  refine ⟨fun q hr hf => ?registers, ?control, fun x hx => ?memory⟩
  case registers => rw [State.reg8_setFlags _ hf, reg8_writeR8 s v hr]
  case control => simp [SameControl]
  case memory =>
    rw [State.readByte_congr (State.setFlags_mem _ z n h c) x, readByte_writeR8, if_neg hx]

/-! ### Results in numbers -/

theorem beq_zero_eq_decide (r : Byte) : (r == 0) = decide (r.toNat = 0) := by
  rw [Bool.eq_iff_iff, beq_iff_eq, decide_eq_true_iff, ← BitVec.toNat_inj]
  rfl

/-- `Add8` in A with its flags, the carry-in given as a bit (40_alu8.md rule R120). -/
theorem State.putSum_add8 (s : State) (x : Byte) (cin : Bool) :
    s.putSum false (add8 s.a x cin) = afterAdd s x cin.toNat := by
  rw [State.putSum, State.setFlags_setA, beq_zero_eq_decide]
  simp only [add8, afterAdd, lowNibble, BitVec.toNat_ofNat]
  rfl

/-- The difference in integers is the one in naturals, which `difference` keeps positive by adding 512. -/
theorem sub8_r (x y : Byte) (cin : Bool) :
    (sub8 x y cin).r = BitVec.ofNat 8 (difference x.toNat y.toNat cin.toNat) := by
  have hx := x.isLt
  have hy := y.isLt
  have hc := cin.toNat_le
  apply BitVec.eq_of_toNat_eq
  simp only [sub8, difference, BitVec.toNat_ofInt, BitVec.toNat_ofNat]
  omega

theorem sub8_r_toNat (x y : Byte) (cin : Bool) :
    (sub8 x y cin).r.toNat = difference x.toNat y.toNat cin.toNat := by
  rw [sub8_r, BitVec.toNat_ofNat, difference, Nat.mod_mod]

/-- `Sub8` in A with its flags, the borrow-in given as a bit (40_alu8.md rule R121). -/
theorem State.putSum_sub8 (s : State) (x : Byte) (cin : Bool) :
    s.putSum true (sub8 s.a x cin) = afterSub s x cin.toNat := by
  rw [State.putSum, State.setFlags_setA, beq_zero_eq_decide, sub8_r_toNat, sub8_r]
  rfl

theorem difference_eq_zero_iff (x y : Byte) : difference x.toNat y.toNat 0 = 0 ↔ x = y := by
  have hx := x.isLt
  have hy := y.isLt
  rw [difference, ← BitVec.toNat_inj]
  omega

theorem State.putCompare_sub8 (s : State) (x : Byte) : s.putCompare (sub8 s.a x false) = afterCp s x := by
  have hz : ((sub8 s.a x false).r == 0) = decide (s.a = x) := by
    rw [beq_zero_eq_decide, sub8_r_toNat]
    exact decide_eq_decide.mpr (difference_eq_zero_iff s.a x)
  rw [State.putCompare, State.setFlags_eq_withAF, hz]
  rfl

theorem State.putLogic_eq (s : State) (h : Bool) (r : Byte) :
    s.putLogic h r = withAF s r (decide (r.toNat = 0)) false h false := by
  rw [State.putLogic, State.setFlags_setA, beq_zero_eq_decide]

theorem add_one_eq_ofNat (v : Byte) : v + 1 = BitVec.ofNat 8 (v.toNat + 1) := by
  rw [BitVec.ofNat_add, BitVec.ofNat_toNat, BitVec.setWidth_eq]
  rfl

theorem add_one_beq_zero (v : Byte) : (v + 1 == 0) = decide (v.toNat = 0xFF) := by
  have hv := v.isLt
  rw [beq_zero_eq_decide, add_one_eq_ofNat, BitVec.toNat_ofNat]
  exact decide_eq_decide.mpr (by omega)

/-! ### The obligations

Each `exec` clause is the instruction's arm, one call of a result function above, so the equation of that
function is the clause. Each encoding clause reads one entry of the opcode table per operand. -/

/-- Settles O1: ADD and ADC are `putSum` of `Add8`. -/
theorem addAndAdcResults : Obligations.AddAndAdcResults := by
  intro s
  rw [carryIn_eq_toNat]
  refine ⟨fun r => ⟨?_, ?_, ?_, ?_⟩, twoBytes_of_lookup rfl, twoBytes_of_lookup rfl, fun n8 => ⟨?_, ?_⟩⟩
  · exact oneByte_of_lookup (by cases r <;> rfl)
  · exact oneByte_of_lookup (by cases r <;> rfl)
  · exact congrArg _ (s.putSum_add8 (readR8 r s) false)
  · exact congrArg _ (s.putSum_add8 (readR8 r s) s.flagC)
  · exact congrArg _ (s.putSum_add8 n8 false)
  · exact congrArg _ (s.putSum_add8 n8 s.flagC)

/-- Settles O2: SUB and SBC are `putSum` of `Sub8`, CP is its `putCompare`. -/
theorem subSbcAndCpResults : Obligations.SubSbcAndCpResults := by
  intro s
  rw [carryIn_eq_toNat]
  refine ⟨fun r => ⟨?_, ?_, ?_, ?_, ?_, ?_⟩, twoBytes_of_lookup rfl, twoBytes_of_lookup rfl,
    twoBytes_of_lookup rfl, fun n8 => ⟨?_, ?_, ?_⟩⟩
  · exact oneByte_of_lookup (by cases r <;> rfl)
  · exact oneByte_of_lookup (by cases r <;> rfl)
  · exact oneByte_of_lookup (by cases r <;> rfl)
  · exact congrArg _ (s.putSum_sub8 (readR8 r s) false)
  · exact congrArg _ (s.putSum_sub8 (readR8 r s) s.flagC)
  · exact congrArg _ (s.putCompare_sub8 (readR8 r s))
  · exact congrArg _ (s.putSum_sub8 n8 false)
  · exact congrArg _ (s.putSum_sub8 n8 s.flagC)
  · exact congrArg _ (s.putCompare_sub8 n8)

/-- Settles O3: AND, XOR and OR are `putLogic`, with H set by AND alone. -/
theorem andXorOrResults : Obligations.AndXorOrResults := by
  intro s
  refine ⟨fun r => ⟨?_, ?_, ?_, ?_, ?_, ?_⟩, twoBytes_of_lookup rfl, twoBytes_of_lookup rfl,
    twoBytes_of_lookup rfl, fun n8 => ⟨?_, ?_, ?_⟩⟩
  · exact oneByte_of_lookup (by cases r <;> rfl)
  · exact oneByte_of_lookup (by cases r <;> rfl)
  · exact oneByte_of_lookup (by cases r <;> rfl)
  · exact congrArg _ (s.putLogic_eq true (s.a &&& readR8 r s))
  · exact congrArg _ (s.putLogic_eq false (s.a ^^^ readR8 r s))
  · exact congrArg _ (s.putLogic_eq false (s.a ||| readR8 r s))
  · exact congrArg _ (s.putLogic_eq true (s.a &&& n8))
  · exact congrArg _ (s.putLogic_eq false (s.a ^^^ n8))
  · exact congrArg _ (s.putLogic_eq false (s.a ||| n8))

/-- Settles O4: INC r8 writes the operand and then the flags, so the frame is that of such an update. -/
theorem incR8Result : Obligations.IncR8Result := by
  intro r s
  refine ⟨oneByte_of_lookup (by cases r <;> rfl), rfl, _, rfl, ?result, ?flags, frameR8_setFlags_writeR8 ..⟩
  case result => rw [readR8_setFlags, readR8_writeR8, add_one_eq_ofNat]
  case flags => rw [State.getF_setFlags, packFlags_eq_flagByte, add_one_beq_zero]; rfl

/-- Settles O8: the three instructions write F, and CPL inverts A, which is exclusive or with all ones. -/
theorem cplScfCcfResults : Obligations.CplScfCcfResults := by
  refine ⟨oneByte_of_lookup rfl, oneByte_of_lookup rfl, oneByte_of_lookup rfl, fun s => ⟨?cpl, ?scf, ?ccf⟩⟩
  case cpl =>
    have hnot : s.a ^^^ 0xFF#8 = ~~~s.a := BitVec.xor_allOnes
    rw [hnot]
    exact congrArg _ (s.setFlags_setA (~~~s.a) s.flagZ true true s.flagC)
  case scf => exact congrArg _ (s.setFlags_eq_withAF s.flagZ false false true)
  case ccf => exact congrArg _ (s.setFlags_eq_withAF s.flagZ false false (!s.flagC))

end Sys2Proof.Machine
end

section
/-! PROOFS, the 16-bit arithmetic family: a pair written from an unbounded result takes the bytes of that
result modulo 65536. -/

namespace Sys2Proof.Machine

theorem lo8_ofNat (n : Nat) : lo8 (BitVec.ofNat 16 n) = BitVec.ofNat 8 n := by
  apply BitVec.eq_of_toNat_eq
  simp only [lo8_toNat, BitVec.toNat_ofNat]
  omega

/-- The high byte of a result reduced modulo 65536 is that of the unbounded result. -/
theorem hi8_ofNat (n : Nat) : hi8 (BitVec.ofNat 16 n) = BitVec.ofNat 8 (n / 256) := by
  apply BitVec.eq_of_toNat_eq
  simp only [hi8_toNat, BitVec.toNat_ofNat]
  omega

theorem State.setHl_ofNat (s : State) (n : Nat) :
    s.setHl (BitVec.ofNat 16 n) = { s with h := BitVec.ofNat 8 (n / 256), l := BitVec.ofNat 8 n } := by
  rw [State.setHl, hi8_ofNat, lo8_ofNat]

theorem State.setFlags_eq_flagByte (s : State) (z n h c : Bool) :
    s.setFlags z n h c = { s with f := flagByte z n h c } := by
  rw [State.setFlags, State.setF, packFlags_masked, packFlags_eq_flagByte]

/-- The frame of ADD HL: H, L and F alone are written, HL from the unbounded sum. -/
theorem State.setFlags_setHl_add (s : State) (x y : Word) (z n h c : Bool) :
    (s.setHl (x + y)).setFlags z n h c = { s with
      h := BitVec.ofNat 8 ((x.toNat + y.toNat) / 256)
      l := BitVec.ofNat 8 (x.toNat + y.toNat)
      f := flagByte z n h c } := by
  rw [BitVec.add_def, State.setHl_ofNat, State.setFlags_eq_flagByte]

/-- Settles O9: the operand and Z are read from the state before either write, so the pair HL needs no case
of its own. -/
theorem addHlR16Result : Obligations.AddHlR16Result := by
  intro r s
  refine ⟨oneByte_of_lookup (by cases r <;> rfl), ?_⟩
  exact congrArg _ (s.setFlags_setHl_add s.hl (readR16 r s) s.flagZ false _ _)

end Sys2Proof.Machine
end

section
/-! PROOFS, the single-bit family: an entry of the CB table read off its three fields, what a write of an
`r8` operand alone leaves, and the bits of a byte under the mask of one bit. -/

namespace Sys2Proof.Machine

/-! ### An entry of the CB table by its fields -/

theorem cbBytes_of_cbLookup {op2 : Byte} {i : Instr} (h : cbLookup op2 = i) : CbBytes op2 i := fun b2 => by
  rw [← h]; rfl

/-- The opcode byte in the statements' numbers is its three fields side by side (30_encoding.md rule R85). -/
theorem opAt_eq_append (x : BitVec 2) (y z : BitVec 3) :
    opAt (64 * x.toNat) y.toNat z.toNat = x ++ y ++ z := by
  revert x y z; decide

@[simp] theorem fieldX_append (x : BitVec 2) (y z : BitVec 3) : fieldX (x ++ y ++ z) = x := by
  revert x y z; decide

@[simp] theorem fieldY_append (x : BitVec 2) (y z : BitVec 3) : fieldY (x ++ y ++ z) = y := by
  revert x y z; decide

@[simp] theorem fieldZ_append (x : BitVec 2) (y z : BitVec 3) : fieldZ (x ++ y ++ z) = z := by
  revert x y z; decide

theorem cbBytes_bitBR8 (b : BitVec 3) (r : R8) : CbBytes (opAt 0x40 b.toNat r.code.toNat) (.bitBR8 b r) :=
  cbBytes_of_cbLookup <| (congrArg cbLookup (opAt_eq_append 0b01#2 b r.code)).trans (by simp [cbLookup])

theorem cbBytes_resBR8 (b : BitVec 3) (r : R8) : CbBytes (opAt 0x80 b.toNat r.code.toNat) (.resBR8 b r) :=
  cbBytes_of_cbLookup <| (congrArg cbLookup (opAt_eq_append 0b10#2 b r.code)).trans (by simp [cbLookup])

theorem cbBytes_setBR8 (b : BitVec 3) (r : R8) : CbBytes (opAt 0xC0 b.toNat r.code.toNat) (.setBR8 b r) :=
  cbBytes_of_cbLookup <| (congrArg cbLookup (opAt_eq_append 0b11#2 b r.code)).trans (by simp [cbLookup])

/-! ### A write of an operand without flags -/

theorem getF_writeR8 (r : R8) (v : Byte) (s : State) : (writeR8 r v s).getF = s.getF := by
  rw [State.getF, writeR8_f, State.getF]

theorem frameR8_writeR8 (r : R8) (v : Byte) (s : State) : FrameR8 r s (writeR8 r v s) := by
  refine ⟨fun q hr _ => reg8_writeR8 s v hr, ?control, fun x hx => ?memory⟩
  case control => simp [SameControl]
  case memory => rw [readByte_writeR8, if_neg hx]

/-! ### The mask of one bit -/

theorem getLsbD_bitMask (b : BitVec 3) (k : Nat) : (bitMask b).getLsbD k = decide (k = b.toNat) := by
  have hb : b.toNat < 8 := b.isLt
  have hmask : bitMask b = BitVec.twoPow 8 b.toNat := (BitVec.twoPow_eq ..).symm
  simp [hmask, BitVec.getLsbD_twoPow, hb, eq_comm]

theorem getLsbD_and_not_bitMask (v : Byte) (b : BitVec 3) {k : Nat} (hk : k < 8) :
    (v &&& ~~~bitMask b).getLsbD k = if k = b.toNat then false else v.getLsbD k := by
  rw [BitVec.getLsbD_and, BitVec.getLsbD_not, getLsbD_bitMask]
  split <;> simp [*]

theorem getLsbD_or_bitMask (v : Byte) (b : BitVec 3) (k : Nat) :
    (v ||| bitMask b).getLsbD k = if k = b.toNat then true else v.getLsbD k := by
  rw [BitVec.getLsbD_or, getLsbD_bitMask]
  split <;> simp [*]

/-- The complement of a bit, in numbers. -/
theorem not_getLsbD_eq_decide (v : Byte) (k : Nat) : (!v.getLsbD k) = decide (v.toNat / 2 ^ k % 2 = 0) := by
  rw [BitVec.getLsbD, Nat.testBit_eq_decide_div_mod_eq, ← decide_not]
  exact decide_eq_decide.mpr Nat.mod_two_not_eq_one

/-! ### The obligations -/

/-- Settles O14: BIT is a flag write alone, with Z the complement of the tested bit. -/
theorem bitTestResult : Obligations.BitTestResult := by
  intro b r s
  refine ⟨cbBytes_bitBR8 b r, ?_, rfl⟩
  rw [← not_getLsbD_eq_decide]
  exact congrArg _ (s.setFlags_eq_flagByte (!(readR8 r s).getLsbD b.toNat) false true s.flagC)

/-- Settles O15: RES and SET write the operand under the mask of bit `b`, and no flag. -/
theorem resSetResults : Obligations.ResSetResults := by
  intro b r s
  refine ⟨cbBytes_resBR8 b r, cbBytes_setBR8 b r, rfl, rfl,
    ⟨_, rfl, fun k hk => ?res, getF_writeR8 .., frameR8_writeR8 ..⟩,
    ⟨_, rfl, fun k _ => ?set, getF_writeR8 .., frameR8_writeR8 ..⟩⟩
  case res => rw [clearBit, readR8_writeR8, getLsbD_and_not_bitMask _ _ hk]
  case set => rw [raiseBit, readR8_writeR8, getLsbD_or_bitMask]

end Sys2Proof.Machine
end

section
/-! PROOFS, the control flow family: a word in memory or in the instruction as the number of its two bytes, and
what a conditional form answers once for both outcomes of its condition. -/

namespace Sys2Proof.Machine

/-! ### Words low byte first -/

theorem mkWord_eq_ofNat (hi lo : Byte) : mkWord hi lo = BitVec.ofNat 16 (lo.toNat + 256 * hi.toNat) := by
  have hhi := hi.isLt
  have hlo := lo.isLt
  apply BitVec.eq_of_toNat_eq
  rw [mkWord_toNat, BitVec.toNat_ofNat]
  omega

theorem threeBytes_of_lookup {op : Byte} {k : Word → Instr} (h : lookup op = .imm16 k) : ThreeBytes op k :=
  fun lo hi => by simp only [decodeRow, h, mkWord_eq_ofNat]

theorem State.readWord_eq_wordAt (s : State) (addr : Word) : s.readWord addr = wordAt s addr :=
  mkWord_eq_ofNat ..

/-! ### Jump targets and returns in numbers -/

theorem State.relative_eq_ofNat (s : State) (e8 : Byte) :
    s.relative e8 = BitVec.ofNat 16 (s.pc.toNat + if e8.toNat < 128 then e8.toNat else 65536 + e8.toNat - 256) := by
  rw [State.relative, sext16_eq, BitVec.ofNat_add, BitVec.ofNat_toNat, BitVec.setWidth_eq]

theorem State.popPc_eq (s : State) : s.popPc = { s with pc := wordAt s s.sp, sp := s.sp + 2 } := by
  rw [← s.readWord_eq_wordAt]
  rfl

/-! ### The unconditional forms with their exact next state -/

theorem exec_jrE8 (e8 : Byte) (s : State) :
    exec (.jrE8 e8) s = .next { s with
      pc := BitVec.ofNat 16 (s.pc.toNat + if e8.toNat < 128 then e8.toNat else 65536 + e8.toNat - 256) } := by
  rw [← s.relative_eq_ofNat]
  rfl

theorem exec_ret (s : State) : exec .ret s = .next { s with pc := wordAt s s.sp, sp := s.sp + 2 } :=
  congrArg Host.Outcome.next s.popPc_eq

/-! ### A conditional form is the unconditional form or nothing (43_control_flow.md rule R180) -/

theorem exec_jpCcA16 (cc : Cond) (a16 : Word) (s : State) :
    exec (.jpCcA16 cc a16) s = if cond cc s then exec (.jpA16 a16) s else .next s :=
  apply_ite Host.Outcome.next ..

theorem exec_jrCcE8 (cc : Cond) (e8 : Byte) (s : State) :
    exec (.jrCcE8 cc e8) s = if cond cc s then exec (.jrE8 e8) s else .next s :=
  apply_ite Host.Outcome.next ..

theorem exec_retCc (cc : Cond) (s : State) :
    exec (.retCc cc) s = if cond cc s then exec .ret s else .next s :=
  apply_ite Host.Outcome.next ..

/-- The three `exec` clauses the statements make of an instruction `i` and its conditional form `j`. -/
theorem exec_taken_and_notTaken {i j : Instr} {cc : Cond} {s t : State} (hi : exec i s = .next t)
    (hj : exec j s = if cond cc s then exec i s else .next s) :
    exec i s = .next t ∧ (cond cc s = true → exec j s = .next t) ∧ (cond cc s = false → exec j s = .next s) := by
  refine ⟨hi, fun taken => ?_, fun notTaken => ?_⟩
  · rw [hj, if_pos taken, hi]
  · rw [hj, if_neg (Bool.eq_false_iff.mp notTaken)]

/-! ### The obligations -/

/-- Settles O17: JP is one write of PC. -/
theorem jpResults : Obligations.JpResults := by
  refine ⟨threeBytes_of_lookup rfl, fun cc => threeBytes_of_lookup (by cases cc <;> rfl), fun cc a16 s => ?_⟩
  exact exec_taken_and_notTaken rfl (exec_jpCcA16 cc a16 s)

/-- Settles O18: JR is one write of PC, whose target is the signed sum in numbers. -/
theorem jrResults : Obligations.JrResults := by
  refine ⟨twoBytes_of_lookup rfl, fun cc => twoBytes_of_lookup (by cases cc <;> rfl), fun cc e8 s => ?_⟩
  exact exec_taken_and_notTaken (exec_jrE8 e8 s) (exec_jrCcE8 cc e8 s)

/-- Settles O21: RET is `popPc`, and a return not taken has no access in its row of the access table. -/
theorem retResults : Obligations.RetResults := by
  refine ⟨oneByte_of_lookup rfl, fun cc => oneByte_of_lookup (by cases cc <;> rfl), fun cc s => ?_⟩
  obtain ⟨ret, taken, notTaken⟩ := exec_taken_and_notTaken (exec_ret s) (exec_retCc cc s)
  refine ⟨ret, taken, fun h => ⟨notTaken h, ?_⟩⟩
  rw [dataAccesses_retCc, if_neg (Bool.eq_false_iff.mp h)]

end Sys2Proof.Machine
end

section
/-! PROOFS, the load family: an entry of block 1 of the opcode table read off its two operand fields, what
LD r8,r8 answers off the one form that does not exist, and an immediate pair as its two bytes. -/

namespace Sys2Proof.Machine

/-! ### Encodings -/

/-- Block 1 is LD r8,r8 by its two fields, but for the one entry that is HALT (30_encoding.md rule R95). -/
theorem lookup_block1 {dst src : R8} (h : ¬(dst = .hlInd ∧ src = .hlInd)) :
    lookup (0b01#2 ++ dst.code ++ src.code) = .plain (.ldR8R8 dst src) := by
  have hblock : lookup (0b01#2 ++ dst.code ++ src.code) = lookupBlock1 (0b01#2 ++ dst.code ++ src.code) := by
    simp [lookup]
  rw [hblock, lookupBlock1, fieldY_append, fieldZ_append, R8.ofCode_code, R8.ofCode_code]
  split
  case h_1 => exact absurd ⟨rfl, rfl⟩ h
  case h_2 => rfl

theorem oneByte_ldR8R8 {dst src : R8} (h : ¬(dst = .hlInd ∧ src = .hlInd)) :
    OneByte (opAt 0x40 dst.code.toNat src.code.toNat) (.ldR8R8 dst src) :=
  oneByte_of_lookup <| (congrArg lookup (opAt_eq_append 0b01#2 dst.code src.code)).trans (lookup_block1 h)

/-- The operand bytes of an instruction at the top of memory come from its bottom (45_load.md rule R213). -/
theorem State.fetched_setPc_top (s : State) :
    (s.setPc 0xFFFF#16).fetched =
      decodeRow (s.readByte 0xFFFF#16) (s.readByte 0x0000#16) (s.readByte 0x0001#16) := by
  have hnext : 0xFFFF#16 + 1 = 0x0000#16 := by decide
  have hafter : 0xFFFF#16 + 2 = 0x0001#16 := by decide
  simp only [State.fetched, State.setPc_pc, hnext, hafter, State.readByte_congr (s.setPc_mem 0xFFFF#16)]

/-! ### LD r8,r8 and LD r8,n8 -/

theorem exec_ldR8R8 {dst src : R8} (h : ¬(dst = .hlInd ∧ src = .hlInd)) (s : State) :
    exec (.ldR8R8 dst src) s = .next (writeR8 dst (readR8 src s) s) :=
  if_neg h

/-- A load of a register from itself writes back what it read. -/
theorem exec_ldR8R8_self {r : R8} (h : r ≠ .hlInd) (s : State) : exec (.ldR8R8 r r) s = .next s := by
  rw [exec_ldR8R8 (fun both => h both.1), writeR8_readR8 s h]

/-- What a write of an `r8` operand alone leaves, as the two loads state it. -/
theorem writeR8_result (r : R8) (v : Byte) (s : State) :
    readR8 r (writeR8 r v s) = v ∧ (writeR8 r v s).getF = s.getF ∧ FrameR8 r s (writeR8 r v s) :=
  ⟨readR8_writeR8 s r v, getF_writeR8 .., frameR8_writeR8 ..⟩

/-! ### LD r16,n16 -/

theorem lo8_eq_ofNat (w : Word) : lo8 w = BitVec.ofNat 8 w.toNat := by
  rw [← lo8_ofNat, BitVec.ofNat_toNat, BitVec.setWidth_eq]

theorem hi8_eq_ofNat (w : Word) : hi8 w = BitVec.ofNat 8 (w.toNat / 256) := by
  rw [← hi8_ofNat, BitVec.ofNat_toNat, BitVec.setWidth_eq]

/-! ### The obligations -/

/-- Settles O26: LD r8,r8 is one write of the operand, and only the form whose byte is HALT is left out. -/
theorem ldR8R8Result : Obligations.LdR8R8Result := by
  refine ⟨oneByte_of_lookup rfl, fun dst src s h => ⟨oneByte_ldR8R8 h, ?accesses, ?self, _, exec_ldR8R8 h s,
    writeR8_result ..⟩⟩
  case accesses => rw [dataAccesses_ldR8R8, if_neg h]; rfl
  case self =>
    rintro rfl
    exact exec_ldR8R8_self (fun hr => h ⟨hr, hr⟩) s

/-- Settles O27: LD r8,n8 and LD r16,n16 are one write of the operand, the pair's by its two bytes. -/
theorem ldImmediateResults : Obligations.LdImmediateResults := by
  refine ⟨fun r => twoBytes_of_lookup (by cases r <;> rfl), fun r => threeBytes_of_lookup (by cases r <;> rfl),
    fun n8 n16 s => ⟨fun r => ⟨_, rfl, writeR8_result ..⟩, rfl, ?pairs, s.fetched_setPc_top⟩⟩
  case pairs =>
    rw [← hi8_eq_ofNat, ← lo8_eq_ofNat]
    exact ⟨rfl, rfl, rfl, rfl⟩

end Sys2Proof.Machine
end

section
/-! PROOFS, the encoding family. Two views of the opcode table carry it: an instruction's bytes are found at its own
row, and a row's record encodes to the bytes it was read from. -/

namespace Sys2Proof

/-! ### What the decoder answers at a row -/

theorem decode_plain {op : Byte} {i : Instr} (hrow : lookup op = .plain i) (hlegal : i.legal = true)
    (rest : List Byte) : decode (op :: rest) = .ok (i, rest) := by
  simp [decode, decodeRow, hrow, hlegal]

theorem decode_imm8 {op : Byte} {k : Byte → Instr} (hrow : lookup op = .imm8 k) {n : Byte}
    (hlegal : (k n).legal = true) (rest : List Byte) : decode (op :: n :: rest) = .ok (k n, rest) := by
  simp [decode, decodeRow, hrow, hlegal]

theorem decode_imm16 {op : Byte} {k : Word → Instr} (hrow : lookup op = .imm16 k) {w : Word}
    (hlegal : (k w).legal = true) (rest : List Byte) : decode (encode16 op w ++ rest) = .ok (k w, rest) := by
  simp [encode16, decode, decodeRow, hrow, hlegal]

theorem decode_prefixed {op2 : Byte} {i : Instr} (hentry : cbLookup op2 = i) (hlegal : i.legal = true)
    (rest : List Byte) : decode (0xCB#8 :: op2 :: rest) = .ok (i, rest) := by
  have hrow : lookup 0xCB#8 = .prefixed := rfl
  simp [decode, decodeRow, hrow, hentry, hlegal]

theorem lookup_rst (y : BitVec 3) : lookup (0b11#2 ++ y ++ 0b111#3) = .plain (.rst y) := by
  simp [lookup, lookupBlock3]

/-- Settles O41: each format's bytes are read at the instruction's own row of the table, one case per operand of the
opcode byte. -/
theorem decodeOfEncode : Obligations.DecodeOfEncode := by
  intro i rest hwf
  cases i
  case nop | rlca | rrca | rla | rra | daa | cpl | scf | ccf | stop | halt | ret | reti | jpHl | ldSpHl | ldhCA
      | ldhAC | di | ei =>
    exact decode_plain rfl rfl rest
  case ldR16MemA p | incR16 p | addHlR16 p | ldAR16Mem p | decR16 p | retCc p | popR16Stk p | pushR16Stk p
      | incR8 p | decR8 p | addAR8 p | adcAR8 p | subAR8 p | sbcAR8 p | andAR8 p | xorAR8 p | orAR8 p | cpAR8 p =>
    exact decode_plain (by cases p <;> rfl) rfl rest
  case ldR8R8 dst src =>
    have hboth : ¬(dst = .hlInd ∧ src = .hlInd) := by rintro ⟨rfl, rfl⟩; cases hwf
    exact decode_plain (Machine.lookup_block1 hboth) rfl rest
  case rst y => exact decode_plain (lookup_rst y) rfl rest
  case ldR8N8 r n8 => exact decode_imm8 (k := .ldR8N8 r) (by cases r <;> rfl) rfl rest
  case jrCcE8 cc e8 => exact decode_imm8 (k := .jrCcE8 cc) (by cases cc <;> rfl) rfl rest
  case jrE8 | addAN8 | adcAN8 | subAN8 | sbcAN8 | andAN8 | xorAN8 | orAN8 | cpAN8 | ldhA8A | ldhAA8 | addSpE8
      | ldHlSpE8 =>
    exact decode_imm8 rfl rfl rest
  case ldR16N16 r n16 => exact decode_imm16 (k := .ldR16N16 r) (by cases r <;> rfl) rfl rest
  case jpCcA16 cc a16 => exact decode_imm16 (k := .jpCcA16 cc) (by cases cc <;> rfl) rfl rest
  case callCcA16 cc a16 => exact decode_imm16 (k := .callCcA16 cc) (by cases cc <;> rfl) rfl rest
  case ldA16Sp | jpA16 | callA16 | ldA16A | ldAA16 => exact decode_imm16 rfl rfl rest
  case rlcR8 r | rrcR8 r | rlR8 r | rrR8 r | slaR8 r | sraR8 r | swapR8 r | srlR8 r =>
    exact decode_prefixed (by cases r <;> rfl) rfl rest
  case bitBR8 b r | resBR8 b r | setBR8 b r => exact decode_prefixed (by simp [cbLookup]) rfl rest
  case cbPrefix | illegalD3 | illegalDB | illegalDD | illegalE3 | illegalE4 | illegalEB | illegalEC | illegalED
      | illegalF4 | illegalFC | illegalFD =>
    cases hwf

/-! ### A row's record encodes to the bytes it was read from -/

/-- The record of a row for an immediate byte (or second opcode byte) `n` and an immediate word `w`. -/
def Row.record (n : Byte) (w : Word) : Row → Instr
  | .plain i => i
  | .imm8 k => k n
  | .imm16 k => k w
  | .prefixed => cbLookup n

/-- The bytes of a row at the opcode byte `op`, by its format (30_encoding.md rule R83). -/
def Row.bytes (op n : Byte) (w : Word) : Row → List Byte
  | .plain _ => [op]
  | .imm8 _ => [op, n]
  | .imm16 _ => encode16 op w
  | .prefixed => [op, n]

theorem decodeRow_eq_record (b0 b1 b2 : Byte) :
    decodeRow b0 b1 b2 =
      ((lookup b0).record b1 (mkWord b2 b1), ((lookup b0).bytes b0 b1 (mkWord b2 b1)).length) := by
  unfold decodeRow
  cases lookup b0 <;> rfl

/-- A byte is its three fields, each the code of an operand (30_encoding.md rule R85). -/
theorem byte_eq_codes (op : Byte) : ∃ (x : R16) (y z : R8), op = x.code ++ y.code ++ z.code := by
  refine ⟨.ofCode (fieldX op), .ofCode (fieldY op), .ofCode (fieldZ op), ?_⟩
  simp only [R16.code_ofCode, R8.code_ofCode]
  revert op; decide +kernel

/-- Every entry of the CB table is well-formed and encodes to the byte 0xCB and its own byte. -/
theorem cbLookup_encodes (op2 : Byte) :
    (cbLookup op2).wellFormed = true ∧ encode (cbLookup op2) = [0xCB#8, op2] := by
  obtain ⟨x, y, z, rfl⟩ := byte_eq_codes op2
  cases x <;> cases y <;> exact ⟨by cases z <;> rfl, by cases z <;> rfl⟩

theorem legal_of_wellFormed {i : Instr} (h : i.wellFormed = true) : i.legal = true := by
  simp only [Instr.wellFormed, Bool.and_eq_true] at h
  exact h.1.1

theorem cbLookup_legal (op2 : Byte) : (cbLookup op2).legal = true :=
  legal_of_wellFormed (cbLookup_encodes op2).1

/-- The 256 rows of the opcode table: the record is an illegal tag exactly at the eleven bytes, ill-formed there
alone, and it encodes to the row's bytes. -/
theorem lookup_encodes (op n : Byte) (w : Word) :
    ((lookup op).record n w).legal = decide (op ∉ illegalBytes) ∧
      ((lookup op).record n w).wellFormed = decide (op ∉ illegalBytes) ∧
      encode ((lookup op).record n w) = (lookup op).bytes op n w := by
  obtain ⟨x, y, z, rfl⟩ := byte_eq_codes op
  cases x <;> cases y <;> cases z
  case sp.c.e => exact ⟨cbLookup_legal n, cbLookup_encodes n⟩
  all_goals exact ⟨rfl, rfl, rfl⟩

/-- A row's bytes, with immediates taken from a sequence that is long enough, are the front of that sequence. -/
theorem Row.bytes_append_drop (b0 : Byte) : ∀ (row : Row) (tail : List Byte),
    (row.bytes b0 (tail.getD 0 0) (mkWord (tail.getD 1 0) (tail.getD 0 0))).length ≤ tail.length + 1 →
    row.bytes b0 (tail.getD 0 0) (mkWord (tail.getD 1 0) (tail.getD 0 0)) ++
      tail.drop ((row.bytes b0 (tail.getD 0 0) (mkWord (tail.getD 1 0) (tail.getD 0 0))).length - 1) = b0 :: tail
  | .plain _, _, _ => rfl
  | .imm8 _, _ :: _, _ => rfl
  | .prefixed, _ :: _, _ => rfl
  | .imm16 _, lo :: hi :: tail, _ => by simp [Row.bytes, encode16]

/-- Settles O42: what decodes is a legal row's record, whose encoding is the row's bytes. -/
theorem encodeOfDecode : Obligations.EncodeOfDecode := by
  intro bytes rest i hdec
  cases bytes with
  | nil => cases hdec
  | cons b0 tail =>
    obtain ⟨hi, hlegal, hlen, hrest⟩ := decode_ok hdec
    rw [decodeRow_eq_record] at hi hlen hrest
    obtain ⟨hl, hwf, hencode⟩ := lookup_encodes b0 (tail.getD 0 0) (mkWord (tail.getD 1 0) (tail.getD 0 0))
    subst hi
    refine ⟨hwf.trans (hl.symm.trans hlegal), ?_⟩
    rw [hencode, hrest]
    exact Row.bytes_append_drop b0 (lookup b0) tail hlen

/-! ### Legality and length, told by the opcode byte -/

theorem decodeRow_legal (b0 b1 b2 : Byte) : (decodeRow b0 b1 b2).1.legal = decide (b0 ∉ illegalBytes) := by
  rw [decodeRow_eq_record]
  exact (lookup_encodes b0 b1 (mkWord b2 b1)).1

theorem decodeRow_wellFormed (b0 b1 b2 : Byte) : (decodeRow b0 b1 b2).1.wellFormed = decide (b0 ∉ illegalBytes) := by
  rw [decodeRow_eq_record]
  exact (lookup_encodes b0 b1 (mkWord b2 b1)).2.1

/-- The decoder rejects a sequence for its first byte exactly when that byte is illegal, whatever follows. -/
theorem decode_illegal_iff (b0 : Byte) (tail : List Byte) :
    decode (b0 :: tail) = .error (.illegalOpcode b0) ↔ b0 ∈ illegalBytes := by
  have hlegal : (decodeRow b0 (tail.getD 0 0) (tail.getD 1 0)).1.legal = false ↔ b0 ∈ illegalBytes := by
    simp [decodeRow_legal]
  by_cases hb : b0 ∈ illegalBytes
  · exact iff_of_true (if_pos (hlegal.mpr hb)) hb
  · refine iff_of_false ?_ hb
    simp only [decode, if_neg (mt hlegal.mp hb)]
    split <;> nofun

/-- Settles O43: the row is legal by the opcode byte alone, and the CB table has well-formed entries only. -/
theorem illegalBytesExactly : Obligations.IllegalBytesExactly :=
  ⟨decodeRow_legal, decode_illegal_iff, by decide +kernel, cbLookup_legal⟩

/-- The record's own length is the length of its bytes: the law stated per instruction, for all of them. -/
theorem length_encode (i : Instr) : (encode i).length = i.length := by cases i <;> rfl

theorem decodeRow_length_eq (b0 b1 b2 : Byte) : (decodeRow b0 b1 b2).1.length = (decodeRow b0 b1 b2).2 := by
  rw [decodeRow_eq_record, ← length_encode, (lookup_encodes b0 b1 (mkWord b2 b1)).2.2]

/-- The number of bytes of a row does not depend on the bytes after the opcode. -/
theorem Row.length_bytes (op n n' : Byte) (w w' : Word) (row : Row) :
    (row.bytes op n w).length = (row.bytes op n' w').length := by cases row <;> rfl

theorem decodeRow_length_congr (b0 b1 b2 : Byte) : (decodeRow b0 b1 b2).2 = (decodeRow b0 0 0).2 := by
  rw [decodeRow_eq_record, decodeRow_eq_record]
  exact Row.length_bytes ..

/-- Settles O44: the length is that of the row at the opcode byte, so the list is checked once per opcode byte. -/
theorem lengthByOpcode : Obligations.LengthByOpcode := by
  intro b0 b1 b2
  refine ⟨?_, decodeRow_length_eq b0 b1 b2⟩
  rw [decodeRow_length_congr]
  revert b0; decide +kernel

/-- Settles O45: each word read at its row. -/
theorem sampleWordsDecode : Obligations.SampleWordsDecode :=
  ⟨rfl, rfl, rfl, rfl, rfl, rfl, rfl, rfl, rfl, rfl, rfl, rfl⟩

end Sys2Proof
end

section
/-! PROOFS, the statements over every instruction: what the spec's tables let an instruction write, and the
invariant. An instruction's next state is a chain of the model's writes; each write keeps everything outside the
tables when its target is listed there, so one case split over the instructions gives all the frames. -/

namespace Sys2Proof.Machine

/-! ### What holds of the next state, if there is one -/

/-- A predicate of the next state, empty for an instruction that does not complete. -/
def IfNext (P : State → Prop) : Host.Outcome State Fault Refusal → Prop
  | .next t => P t
  | .fault _ => True
  | .refused _ => True

theorem IfNext.of_next {P : State → Prop} {i : Instr} {s t : State} (h : IfNext P (exec i s))
    (hnext : exec i s = .next t) : P t := by
  rwa [hnext] at h

/-! ### What is outside the tables is kept -/

/-- `t` differs from `s` in the listed registers, SP if `sp`, the listed flags and the bytes at the listed
addresses alone; and F's low nibble and the form of memory are kept. -/
structure Keeps (regs : List Reg8) (sp : Bool) (flags : List Flag) (stores : List Word) (s t : State) : Prop where
  reg8 : ∀ q, q ≠ .f → q ∉ regs → t.reg8 q = s.reg8 q
  sp : sp = false → t.sp = s.sp
  flag : ∀ fl, fl ∉ flags → t.flag fl = s.flag fl
  byte : ∀ x, x ∉ stores → t.readByte x = s.readByte x
  low : s.f &&& 0x0F#8 = 0#8 → t.f &&& 0x0F#8 = 0#8
  canonical : Memory.wf s.mem = true → Memory.wf t.mem = true

section
variable {regs : List Reg8} {sp : Bool} {flags : List Flag} {stores : List Word} {s u : State}

theorem Keeps.refl : Keeps regs sp flags stores s s :=
  ⟨fun _ _ _ => rfl, fun _ => rfl, fun _ _ => rfl, fun _ _ => rfl, id, id⟩

theorem State.flag_congr {s t : State} (h : t.f = s.f) (fl : Flag) : t.flag fl = s.flag fl := by
  cases fl <;> simp only [State.flag, State.flagZ, State.flagN, State.flagH, State.flagC, h]

/-- A conditional instruction, taken or not. -/
theorem Keeps.ite {c : Prop} [Decidable c] (h : Keeps regs sp flags stores s u) :
    Keeps regs sp flags stores s (if c then u else s) := by
  split
  · exact h
  · exact Keeps.refl

/-! #### Writes outside registers, flags and memory -/

theorem Keeps.setPc (h : Keeps regs sp flags stores s u) (w : Word) : Keeps regs sp flags stores s (u.setPc w) :=
  ⟨h.reg8, h.sp, h.flag, h.byte, h.low, h.canonical⟩

theorem Keeps.setIme (h : Keeps regs sp flags stores s u) (v : Bool) : Keeps regs sp flags stores s (u.setIme v) :=
  ⟨h.reg8, h.sp, h.flag, h.byte, h.low, h.canonical⟩

theorem Keeps.setHalted (h : Keeps regs sp flags stores s u) (v : Bool) :
    Keeps regs sp flags stores s (u.setHalted v) :=
  ⟨h.reg8, h.sp, h.flag, h.byte, h.low, h.canonical⟩

theorem Keeps.setLowPower (h : Keeps regs sp flags stores s u) (v : Bool) :
    Keeps regs sp flags stores s (u.setLowPower v) :=
  ⟨h.reg8, h.sp, h.flag, h.byte, h.low, h.canonical⟩

/-! #### Writes of memory -/

theorem Keeps.writeByte (h : Keeps regs sp flags stores s u) {x : Word} (hx : x ∈ stores) (v : Byte) :
    Keeps regs sp flags stores s (u.writeByte x v) where
  reg8 := h.reg8
  sp := h.sp
  flag := h.flag
  byte y hy := by
    rw [State.readByte_writeByte_other u v (by rintro rfl; exact hy hx), h.byte y hy]
  low := h.low
  canonical hs := State.wf_writeByte x v (h.canonical hs)

theorem Keeps.writeWord (h : Keeps regs sp flags stores s u) {x : Word} (hx : x ∈ stores) (hx' : x + 1 ∈ stores)
    (w : Word) : Keeps regs sp flags stores s (u.writeWord x w) :=
  (h.writeByte hx (lo8 w)).writeByte hx' (hi8 w)

/-! #### Writes of registers -/

theorem Keeps.setFlags (h : Keeps regs sp flags stores s u) {z n hc c : Bool}
    (hf : ∀ fl, fl ∉ flags → (u.setFlags z n hc c).flag fl = u.flag fl) :
    Keeps regs sp flags stores s (u.setFlags z n hc c) where
  reg8 q hq hr := (u.reg8_setFlags hq z n hc c).trans (h.reg8 q hq hr)
  sp := h.sp
  flag fl hfl := (hf fl hfl).trans (h.flag fl hfl)
  byte := h.byte
  low _ := mask_low _
  canonical := h.canonical

theorem Keeps.writeR8 (h : Keeps regs sp flags stores s u) {r : R8} (hr : r.regs ⊆ regs)
    (hm : r = .hlInd → u.hl ∈ stores) (v : Byte) : Keeps regs sp flags stores s (writeR8 r v u) where
  reg8 q hq hmem := (reg8_writeR8 u v (fun hqr => hmem (hr hqr))).trans (h.reg8 q hq hmem)
  sp hsp := (writeR8_sp u r v).trans (h.sp hsp)
  flag fl hfl := (State.flag_congr (writeR8_f u r v) fl).trans (h.flag fl hfl)
  byte x hx := by
    rw [readByte_writeR8, if_neg (by rintro ⟨hr, rfl⟩; exact hx (hm hr)), h.byte x hx]
  low hs := (writeR8_f u r v).symm ▸ h.low hs
  canonical hs := wf_writeR8 r v (h.canonical hs)

theorem Keeps.writeR16 (h : Keeps regs sp flags stores s u) {r : R16} (hr : r.regs ⊆ regs)
    (hp : r = .sp → sp = true) (w : Word) : Keeps regs sp flags stores s (writeR16 r w u) where
  reg8 q hq hmem := (reg8_writeR16 u w (fun hqr => hmem (hr hqr))).trans (h.reg8 q hq hmem)
  sp hsp := by
    cases r
    case sp => rw [hp rfl] at hsp; cases hsp
    all_goals exact h.sp hsp
  flag fl hfl := (State.flag_congr (writeR16_f u r w) fl).trans (h.flag fl hfl)
  byte x hx := (State.readByte_congr (writeR16_mem u r w) x).trans (h.byte x hx)
  low hs := (writeR16_f u r w).symm ▸ h.low hs
  canonical hs := (writeR16_mem u r w).symm ▸ h.canonical hs

theorem Keeps.writeR16Stk (h : Keeps regs sp flags stores s u) {r : R16Stk} (hr : r.regs ⊆ regs)
    (hf : r = .af → ∀ fl, fl ∈ flags) (w : Word) : Keeps regs sp flags stores s (writeR16Stk r w u) where
  reg8 q hq hmem := (reg8_writeR16Stk u w (fun hqr => hmem (hr hqr))).trans (h.reg8 q hq hmem)
  sp hsp := (writeR16Stk_sp u r w).trans (h.sp hsp)
  flag fl hfl := by
    cases r
    case af => exact absurd (hf rfl fl) hfl
    all_goals exact h.flag fl hfl
  byte x hx := (State.readByte_congr (writeR16Stk_mem u r w) x).trans (h.byte x hx)
  low hs := low_writeR16Stk r w (h.low hs)
  canonical hs := (writeR16Stk_mem u r w).symm ▸ h.canonical hs

theorem Keeps.postR16Mem (h : Keeps regs sp flags stores s u) {m : R16Mem} (hm : m.regs ⊆ regs) :
    Keeps regs sp flags stores s (postR16Mem m u) := by
  cases m
  case bc | de => exact h
  case hlInc | hlDec => exact h.writeR16 (r := .hl) hm nofun _

theorem Keeps.setA (h : Keeps regs sp flags stores s u) (ha : .a ∈ regs) (v : Byte) :
    Keeps regs sp flags stores s (u.setA v) :=
  h.writeR8 (r := .a) (List.cons_subset.mpr ⟨ha, List.nil_subset _⟩) nofun v

theorem Keeps.setSp (h : Keeps regs sp flags stores s u) (hp : sp = true) (w : Word) :
    Keeps regs sp flags stores s (u.setSp w) :=
  h.writeR16 (r := .sp) (List.nil_subset _) (fun _ => hp) w

end

/-! #### The shapes that several instructions share -/

section
variable {regs : List Reg8} {sp : Bool} {flags : List Flag} {stores : List Word} {s u : State}

theorem Keeps.setAllFlags (h : Keeps regs sp [.z, .n, .h, .c] stores s u) (z n hc c : Bool) :
    Keeps regs sp [.z, .n, .h, .c] stores s (u.setFlags z n hc c) :=
  h.setFlags fun fl hfl => absurd (by cases fl <;> decide) hfl

theorem keeps_setA_setFlags (v : Byte) (z n hc c : Bool) :
    Keeps [.a] sp [.z, .n, .h, .c] stores s ((s.setA v).setFlags z n hc c) :=
  (Keeps.refl.setA (.head _) v).setAllFlags z n hc c

/-- A flag write that gives C its old value. -/
theorem Keeps.setFlags_keepC (h : Keeps regs sp [.z, .n, .h] stores s u) (z n hc : Bool) :
    Keeps regs sp [.z, .n, .h] stores s (u.setFlags z n hc u.flagC) :=
  h.setFlags fun fl hfl => by
    cases fl
    case c => exact u.flagC_setFlags z n hc u.flagC
    all_goals exact absurd (by decide) hfl

/-- A flag write that gives Z its old value. -/
theorem Keeps.setFlags_keepZ (h : Keeps regs sp [.n, .h, .c] stores s u) (n hc c : Bool) :
    Keeps regs sp [.n, .h, .c] stores s (u.setFlags u.flagZ n hc c) :=
  h.setFlags fun fl hfl => by
    cases fl
    case z => exact u.flagZ_setFlags u.flagZ n hc c
    all_goals exact absurd (by decide) hfl

theorem keeps_writeR8_update (r : R8) (v : Byte) :
    Keeps r.regs sp flags ((updatesR8 r s).flatMap Access.written) s (writeR8 r v s) :=
  Keeps.refl.writeR8 (List.Subset.refl _) (by rintro rfl; exact .head _) v

theorem keeps_writeR8_only (r : R8) (v : Byte) :
    Keeps r.regs sp flags ((writesR8 r s).flatMap Access.written) s (writeR8 r v s) :=
  Keeps.refl.writeR8 (List.Subset.refl _) (by rintro rfl; exact .head _) v

theorem keeps_incDec (r : R8) (v : Byte) (z n hc : Bool) :
    Keeps r.regs sp [.z, .n, .h] ((updatesR8 r s).flatMap Access.written) s
      ((writeR8 r v s).setFlags z n hc s.flagC) := by
  have hc' : s.flagC = (writeR8 r v s).flagC := (State.flag_congr (writeR8_f s r v) .c).symm
  rw [hc']
  exact (keeps_writeR8_update r v).setFlags_keepC z n hc

theorem keeps_rotR8 (op : RotOp) (r : R8) :
    Keeps r.regs sp [.z, .n, .h, .c] ((updatesR8 r s).flatMap Access.written) s (rotR8 op r s) :=
  (keeps_writeR8_update r _).setAllFlags _ _ _ _

theorem keeps_testBit (b : BitVec 3) (r : R8) : Keeps regs sp [.z, .n, .h] stores s (testBit b r s) :=
  Keeps.refl.setFlags_keepC _ _ _

theorem keeps_push16 (v : Word) :
    Keeps regs true flags ([Access.writeWord (s.sp - 2)].flatMap Access.written) s (s.push16 v) :=
  (Keeps.refl.setSp rfl _).writeWord (.head _) (.tail _ (.head _)) v

theorem keeps_popPc : Keeps regs true flags stores s s.popPc :=
  (Keeps.refl.setSp rfl _).setPc _

end

/-! ### Every instruction keeps what its rows do not list -/

theorem flagsWritten_cbPrefix (op2 : Byte) :
    (Instr.cbPrefix op2).flagsWritten =
      match (fieldX op2).toNat with
      | 0 => [.z, .n, .h, .c]
      | 1 => [.z, .n, .h]
      | _ => [] := rfl

/-- The prefixed record, by its selector. -/
theorem execCbPrefix_keeps (op2 : Byte) (s : State) :
    IfNext (Keeps (Instr.cbPrefix op2).destRegs false (Instr.cbPrefix op2).flagsWritten
      ((Instr.cbPrefix op2).storedTo s) s) (execCbPrefix op2 s) := by
  rw [execCbPrefix, destRegs_cbPrefix, flagsWritten_cbPrefix, Instr.storedTo, dataAccesses_cbPrefix]
  generalize (fieldX op2).toNat = x
  match x with
  | 0 => exact keeps_rotR8 ..
  | 1 => exact keeps_testBit ..
  | 2 | _ + 3 => exact keeps_writeR8_update ..

theorem ldR8R8_keeps (dst src : R8) (s : State) :
    IfNext (Keeps dst.regs false [] ((Instr.ldR8R8 dst src).storedTo s) s) (exec (.ldR8R8 dst src) s) := by
  by_cases hboth : dst = .hlInd ∧ src = .hlInd
  · obtain ⟨rfl, rfl⟩ := hboth
    trivial
  · rw [exec_ldR8R8 hboth, Instr.storedTo, dataAccesses_ldR8R8, if_neg hboth, List.flatMap_append]
    refine Keeps.refl.writeR8 (List.Subset.refl _) ?_ _
    rintro rfl
    exact List.mem_append_right _ (.head _)

theorem exec_callCcA16 (cc : Cond) (a16 : Word) (s : State) :
    exec (.callCcA16 cc a16) s = if cond cc s then exec (.callA16 a16) s else .next s :=
  apply_ite Host.Outcome.next ..

/-- The frame of every instruction: each case names the writes of its meaning, in order. -/
theorem exec_keeps (i : Instr) (s : State) :
    IfNext (Keeps i.destRegs i.writesSp i.flagsWritten (i.storedTo s) s) (exec i s) := by
  cases i
  case illegalD3 | illegalDB | illegalDD | illegalE3 | illegalE4 | illegalEB | illegalEC | illegalED | illegalF4
      | illegalFC | illegalFD => trivial
  case nop => exact Keeps.refl
  case jpA16 | jpHl | jrE8 => exact Keeps.refl.setPc _
  case di | ei => exact Keeps.refl.setIme _
  case halt => exact Keeps.refl.setHalted _
  case stop => exact Keeps.refl.setLowPower _
  case addAR8 | adcAR8 | subAR8 | sbcAR8 | andAR8 | xorAR8 | orAR8 | addAN8 | adcAN8 | subAN8 | sbcAN8 | andAN8
      | xorAN8 | orAN8 | rlca | rrca | rla | rra =>
    exact keeps_setA_setFlags ..
  case cpAR8 | cpAN8 => exact Keeps.refl.setAllFlags ..
  case incR8 r | decR8 r => exact keeps_incDec r ..
  case rlcR8 r | rrcR8 r | rlR8 r | rrR8 r | slaR8 r | sraR8 r | swapR8 r | srlR8 r => exact keeps_rotR8 _ r
  case bitBR8 b r => exact keeps_testBit b r
  case resBR8 b r | setBR8 b r => exact keeps_writeR8_update r _
  case ldR8N8 r n8 => exact keeps_writeR8_only r n8
  case ldA16Sp => exact Keeps.refl.writeWord (.head _) (.tail _ (.head _)) _
  case ldA16A | ldhA8A | ldhCA => exact Keeps.refl.writeByte (.head _) _
  case ldAA16 | ldhAA8 | ldhAC => exact Keeps.refl.setA (.head _) _
  case ldR16MemA => exact (Keeps.refl.writeByte (.head _) _).postR16Mem (List.Subset.refl _)
  case ldAR16Mem m => exact (Keeps.refl.setA (.head _) _).postR16Mem (List.subset_cons_self ..)
  case ldSpHl => exact Keeps.refl.setSp rfl _
  case ret => exact keeps_popPc
  case reti => exact keeps_popPc.setIme true
  case callA16 | rst => exact (keeps_push16 _).setPc _
  case pushR16Stk => exact keeps_push16 _
  case popR16Stk r =>
    exact (Keeps.refl.setSp rfl _).writeR16Stk (List.Subset.refl _) (by rintro rfl fl; cases fl <;> decide) _
  case ldR16N16 r n16 | incR16 r | decR16 r =>
    exact Keeps.refl.writeR16 (List.Subset.refl _) (by rintro rfl; rfl) _
  case addSpE8 => exact (Keeps.refl.setSp rfl _).setAllFlags ..
  case ldHlSpE8 => exact (Keeps.refl.writeR16 (r := .hl) (List.Subset.refl _) nofun _).setAllFlags ..
  case cbPrefix op2 => exact execCbPrefix_keeps op2 s
  case ldR8R8 dst src => exact ldR8R8_keeps dst src s
  case daa =>
    refine (Keeps.refl.setA (.head _) _).setFlags fun fl hfl => ?_
    cases fl
    case n => exact State.flagN_setFlags ..
    all_goals exact absurd (by decide) hfl
  case cpl =>
    refine (Keeps.refl.setA (.head _) _).setFlags fun fl hfl => ?_
    cases fl
    case z => exact State.flagZ_setFlags ..
    case c => exact State.flagC_setFlags ..
    all_goals exact absurd (by decide) hfl
  case scf | ccf => exact Keeps.refl.setFlags_keepZ ..
  case addHlR16 => exact (Keeps.refl.writeR16 (r := .hl) (List.Subset.refl _) nofun _).setFlags_keepZ ..
  case jpCcA16 | jrCcE8 => exact .ite (Keeps.refl.setPc _)
  case retCc => exact .ite keeps_popPc
  case callCcA16 cc a16 =>
    rw [exec_callCcA16, Instr.storedTo, dataAccesses_callCcA16]
    split
    · exact (keeps_push16 _).setPc _
    · exact Keeps.refl

/-! ### PC, the control flags and the fault status after every instruction -/

/-- IME after an instruction (10_state.md rule R34). -/
def imeAfter (i : Instr) (s : State) : Bool :=
  match i with
  | .di => false
  | .ei | .reti => true
  | _ => s.ime

/-- `halted` after an instruction (10_state.md rule R35). -/
def haltedAfter (i : Instr) (s : State) : Bool :=
  match i with
  | .halt => true
  | _ => s.halted

/-- `low_power` after an instruction (10_state.md rule R36). -/
def lowPowerAfter (i : Instr) (s : State) : Bool :=
  match i with
  | .stop => true
  | _ => s.lowPower

/-- PC by the table of 10_state.md rule R27, the control flags and the fault status (rule R37). -/
structure ControlAfter (i : Instr) (s t : State) : Prop where
  pc : t.pc = i.pcAfter s
  ime : t.ime = imeAfter i s
  halted : t.halted = haltedAfter i s
  lowPower : t.lowPower = lowPowerAfter i s
  fault : t.fault = s.fault

theorem execCbPrefix_control (op2 : Byte) (s : State) :
    IfNext (ControlAfter (.cbPrefix op2) s) (execCbPrefix op2 s) := by
  rw [execCbPrefix]
  generalize (fieldX op2).toNat = x
  match x with
  | 1 => exact ⟨rfl, rfl, rfl, rfl, rfl⟩
  | 0 | 2 | _ + 3 => exact ⟨writeR8_pc .., writeR8_ime .., writeR8_halted .., writeR8_lowPower .., writeR8_fault ..⟩

/-- A conditional instruction, by whether it is taken. -/
theorem ControlAfter.ite {i : Instr} {cc : Cond} {s u : State} (taken : cond cc s = true → ControlAfter i s u)
    (notTaken : ¬cond cc s = true → ControlAfter i s s) : ControlAfter i s (if cond cc s then u else s) := by
  split
  case isTrue h => exact taken h
  case isFalse h => exact notTaken h

/-- PC and the control fields of every instruction: the operand writes leave them, and the jumps, the returns and the
five instructions of one control flag write theirs. -/
theorem exec_control (i : Instr) (s : State) : IfNext (ControlAfter i s) (exec i s) := by
  cases i
  case illegalD3 | illegalDB | illegalDD | illegalE3 | illegalE4 | illegalEB | illegalEC | illegalED | illegalF4
      | illegalFC | illegalFD => trivial
  case incR8 r | decR8 r | ldR8N8 r _ | rlcR8 r | rrcR8 r | rlR8 r | rrR8 r | slaR8 r | sraR8 r | swapR8 r | srlR8 r
      | resBR8 b r | setBR8 b r =>
    exact ⟨writeR8_pc s r _, writeR8_ime s r _, writeR8_halted s r _, writeR8_lowPower s r _, writeR8_fault s r _⟩
  case ldR8R8 dst src =>
    by_cases hboth : dst = .hlInd ∧ src = .hlInd
    · obtain ⟨rfl, rfl⟩ := hboth
      trivial
    · rw [exec_ldR8R8 hboth]
      exact ⟨writeR8_pc .., writeR8_ime .., writeR8_halted .., writeR8_lowPower .., writeR8_fault ..⟩
  case cbPrefix op2 => exact execCbPrefix_control op2 s
  case ldR16N16 r _ | incR16 r | decR16 r | popR16Stk r | ldR16MemA r | ldAR16Mem r =>
    cases r <;> exact ⟨rfl, rfl, rfl, rfl, rfl⟩
  case jpCcA16 | jrCcE8 | retCc =>
    exact .ite (fun h => ⟨(if_pos h).symm, rfl, rfl, rfl, rfl⟩) (fun h => ⟨(if_neg h).symm, rfl, rfl, rfl, rfl⟩)
  case callCcA16 =>
    exact .ite (fun h => ⟨(if_pos h).symm, push16_ime s s.pc, push16_halted s s.pc, push16_lowPower s s.pc,
      push16_fault s s.pc⟩) (fun h => ⟨(if_neg h).symm, rfl, rfl, rfl, rfl⟩)
  case callA16 => exact ⟨rfl, push16_ime s s.pc, push16_halted s s.pc, push16_lowPower s s.pc, push16_fault s s.pc⟩
  case rst y =>
    exact ⟨rstTarget_eq y, push16_ime s s.pc, push16_halted s s.pc, push16_lowPower s s.pc, push16_fault s s.pc⟩
  case pushR16Stk => exact ⟨push16_pc .., push16_ime .., push16_halted .., push16_lowPower .., push16_fault ..⟩
  all_goals exact ⟨rfl, rfl, rfl, rfl, rfl⟩

/-! ### The invariant -/

/-- A completed instruction keeps the invariant of a running core: at most one of HALT and STOP is run. -/
theorem exec_keepsInv {i : Instr} {s t : State} (hrun : s.Running) (hinv : s.Inv) (h : exec i s = .next t) :
    t.Inv ∧ t.fault = none := by
  obtain ⟨hfault, hhalted, hlow⟩ := hrun
  obtain ⟨hcanonical, hnibble, -⟩ := hinv
  have keeps := (exec_keeps i s).of_next h
  have control := (exec_control i s).of_next h
  refine ⟨⟨keeps.canonical hcanonical, keeps.low hnibble, ?_⟩, control.fault.trans hfault⟩
  rw [control.halted, control.lowPower]
  rintro ⟨hh, hl⟩
  cases i
  case halt => exact Bool.false_ne_true (hlow.symm.trans hl)
  all_goals exact Bool.false_ne_true (hhalted.symm.trans hh)

/-- A fault leaves the state it was raised in with the status recorded, so a running core's outcome keeps the
invariant either way. -/
theorem exec_fault_keepsInv {i : Instr} {s : State} {r : Fault} (hinv : s.Inv) (h : exec i s = .fault r) :
    r.after.Inv := by
  rcases exec_cases i s with ⟨t, hnext⟩ | ⟨status, hraise⟩
  · rw [hnext] at h; cases h
  · rw [hraise] at h
    cases h
    rw [FaultStatus.after_report]
    exact hinv

theorem step_next_keepsInv {s t : State} (hinv : s.Inv) (h : step s = .next t) : t.Inv ∧ t.fault = none := by
  rcases step_cases s with ⟨r, -, hs⟩ | ⟨hfault, -, hs⟩ | ⟨hrun, hs⟩ <;> rw [hs] at h
  · cases h
  · cases h
    exact ⟨hinv, hfault⟩
  · exact exec_keepsInv (s := s.afterFetch) hrun hinv h

theorem step_fault_keepsInv {s : State} {r : Fault} (hinv : s.Inv) (h : step s = .fault r) : r.after.Inv := by
  rcases step_cases s with ⟨status, -, hs⟩ | ⟨-, -, hs⟩ | ⟨-, hs⟩ <;> rw [hs] at h
  · cases h
    rwa [FaultStatus.after_report]
  · cases h
  · exact exec_fault_keepsInv (s := s.afterFetch) hinv h

theorem executePort_next_keepsInv {i : Instr} {s t : State} (hinv : s.Inv) (h : executePort i s = .next t) :
    t.Inv := by
  rcases executePort_cases i s with ⟨status, -, hs⟩ | ⟨-, -, hs⟩ | ⟨hrun, -, hs⟩ | ⟨-, -, hs⟩ <;> rw [hs] at h
  · cases h
  · cases h
    exact hinv
  · exact (exec_keepsInv hrun hinv h).1
  · cases h

theorem executePort_fault_keepsInv {i : Instr} {s : State} {r : Fault} (hinv : s.Inv)
    (h : executePort i s = .fault r) : r.after.Inv := by
  rcases executePort_cases i s with ⟨status, -, hs⟩ | ⟨-, -, hs⟩ | ⟨-, -, hs⟩ | ⟨-, -, hs⟩ <;> rw [hs] at h
  · cases h
    rwa [FaultStatus.after_report]
  · cases h
  · exact exec_fault_keepsInv hinv h
  · cases h
    exact hinv

theorem stateAfter_inv {o : Host.Outcome State Fault Refusal} {s : State} (hinv : s.Inv)
    (hnext : ∀ t, o = .next t → t.Inv) (hfault : ∀ r, o = .fault r → r.after.Inv) : (stateAfter o s).Inv := by
  cases o
  case next t => exact hnext t rfl
  case fault r => exact hfault r rfl
  case refused => exact hinv

theorem launch_inv {m : Memory} (hm : Memory.wf m = true) : (State.launch m).Inv := ⟨hm, BitVec.zero_and, nofun⟩

theorem drive_keepsInv (act : DriverAction) {s : State} (hinv : s.Inv) : (drive act s).Inv := by
  have ⟨hcanonical, hnibble, hhold⟩ := hinv
  cases act
  case reset => exact launch_inv hcanonical
  case step =>
    exact stateAfter_inv hinv (fun _ h => (step_next_keepsInv hinv h).1) (fun _ => step_fault_keepsInv hinv)
  case execute record =>
    exact stateAfter_inv hinv (fun _ => executePort_next_keepsInv hinv) (fun _ => executePort_fault_keepsInv hinv)
  case writeMemory x v => exact ⟨State.wf_writeByte x v hcanonical, hnibble, hhold⟩
  case clearHalted => exact ⟨hcanonical, hnibble, nofun⟩
  case clearLowPower => exact ⟨hcanonical, hnibble, nofun⟩
  case setIme => exact ⟨hcanonical, hnibble, hhold⟩

/-! ### PC over one step -/

/-- The fetch moves PC past the record by the record's own length. -/
theorem afterFetch_eq (s : State) :
    s.afterFetch = { s with pc := s.pc + BitVec.ofNat 16 s.fetched.1.length } := by
  rw [State.fetched, decodeRow_length_eq]
  rfl

/-! ### The obligations -/

/-- Settles O50: the register part of the frame. -/
theorem registerFrame : Obligations.RegisterFrame := fun i s _ h =>
  ⟨((exec_keeps i s).of_next h).reg8, ((exec_keeps i s).of_next h).sp⟩

/-- Settles O51: the flag part of the frame. -/
theorem flagFrame : Obligations.FlagFrame := fun i s _ h => ((exec_keeps i s).of_next h).flag

/-- Settles O54: the memory part of the frame. -/
theorem storesOnlyWhereListed : Obligations.StoresOnlyWhereListed := fun i s _ h => ((exec_keeps i s).of_next h).byte

/-- Settles O52: each control flag has its own instructions. -/
theorem controlFlagFrame : Obligations.ControlFlagFrame := by
  intro i s t h
  obtain ⟨-, hime, hhalted, hlow, hfault⟩ := (exec_control i s).of_next h
  rw [hime, hhalted, hlow]
  refine ⟨?_, ?_, ?_, hfault⟩ <;> cases i <;> rfl

/-- Settles O58: the reset values and the canonical form of the launch memory. -/
theorem resetMeetsInv : Obligations.ResetMeetsInv := ⟨launch_inv (m := []) rfl, fun _ => launch_inv⟩

/-- Settles O59: the frame of the record that is run keeps memory's form and F's low nibble, and a running core has no
hold flag to begin with. -/
theorem stepKeepsInv : Obligations.StepKeepsInv :=
  fun _ hinv => ⟨fun _ => step_next_keepsInv hinv, fun _ => step_fault_keepsInv hinv⟩

/-- Settles O60, by induction on the actions. -/
theorem driverKeepsInv : Obligations.DriverKeepsInv := by
  intro acts
  induction acts with
  | nil => exact fun _ hinv => hinv
  | cons act acts ih => exact fun s hinv => ih (drive act s) (drive_keepsInv act hinv)

end Sys2Proof.Machine
end

section
/-! PROOFS, the step, the faults and the ports: an illegal byte's row, the run states' answers, and what does not see
IME, another memory, or the hold and fault gates. -/

namespace Sys2Proof.Machine

/-! ### The illegal bytes -/

theorem exec_illegal {i : Instr} {byte : Byte} (h : i.illegalByte? = some byte) (s : State) :
    exec i s = raiseIllegalOpcode byte s := by
  cases i
  case illegalD3 | illegalDB | illegalDD | illegalE3 | illegalE4 | illegalEB | illegalEC | illegalED | illegalF4
      | illegalFC | illegalFD =>
    cases h
    rfl
  all_goals cases h

/-- An illegal byte's row is its own tag, one byte long. -/
theorem decodeRow_illegal {b0 : Byte} (h : b0 ∈ illegalBytes) (b1 b2 : Byte) :
    (decodeRow b0 b1 b2).1.illegalByte? = some b0 ∧ (decodeRow b0 b1 b2).2 = 1 := by
  simp only [illegalBytes, List.mem_cons, List.not_mem_nil, or_false] at h
  rcases h with rfl | rfl | rfl | rfl | rfl | rfl | rfl | rfl | rfl | rfl | rfl <;> exact ⟨rfl, rfl⟩

theorem step_illegal {s : State} (hrun : s.Running) (h : s.readByte s.pc ∈ illegalBytes) :
    step s = .fault (.illegalOpcode (s.readByte s.pc) s.pc
      { s with pc := s.pc + 1, fault := some (.illegalOpcode (s.readByte s.pc) s.pc) }) := by
  obtain ⟨htag, hlen⟩ := decodeRow_illegal h (s.readByte (s.pc + 1)) (s.readByte (s.pc + 2))
  have hafter : s.afterFetch = { s with pc := s.pc + 1 } := by
    rw [State.afterFetch, State.fetched, hlen]
    rfl
  have hpc : s.pc + 1 - 1 = s.pc := BitVec.add_sub_cancel ..
  rw [step_running hrun, State.fetched, exec_illegal htag, hafter]
  simp only [raiseIllegalOpcode, hpc]
  rfl

/-- A running core's step completes off the eleven bytes. -/
theorem step_legal {s : State} (hrun : s.Running) (h : s.readByte s.pc ∉ illegalBytes) : ∃ t, step s = .next t := by
  rw [step_running hrun]
  refine exec_wellFormed _ ?_
  rw [State.fetched, decodeRow_wellFormed]
  exact decide_eq_true h

/-- Settles O33: an illegal byte's row is its tag, whose meaning raises the byte from the address before PC. -/
theorem illegalBytesFault : Obligations.IllegalBytesFault :=
  ⟨fun _ => step_illegal, fun _ _ s h => exec_illegal h s⟩

/-- Settles O53: the step's PC is that of the record run past its own length, and an illegal byte is one byte long. -/
theorem pcAfterEveryStep : Obligations.PcAfterEveryStep := by
  intro s hrun
  refine ⟨fun t h => ?next, fun r h => ?fault⟩
  case next =>
    rw [step_running hrun, afterFetch_eq] at h
    exact ((exec_control _ _).of_next h).pc
  case fault =>
    by_cases hb : s.readByte s.pc ∈ illegalBytes
    · rw [step_illegal hrun hb] at h
      cases h
      rfl
    · obtain ⟨t, hnext⟩ := step_legal hrun hb
      rw [hnext] at h
      cases h

/-! ### The entries after 0xCB -/

/-- The CB entry's own meaning is that of the PREFIX record (46_misc.md rule R245). -/
theorem exec_cbLookup (op2 : Byte) (s : State) : exec (cbLookup op2) s = exec (.cbPrefix op2) s := by
  show _ = execCbPrefix op2 s
  simp only [cbLookup, execCbPrefix, RotOp.ofSelector]
  generalize (fieldX op2).toNat = x
  generalize (fieldY op2).toNat = y
  match x, y with
  | 0, 0 | 0, 1 | 0, 2 | 0, 3 | 0, 4 | 0, 5 | 0, 6 | 0, _ + 7 => rfl
  | 1, _ | 2, _ | _ + 3, _ => rfl

/-- Settles O32: the entry is well-formed, so it completes. -/
theorem prefixRunsItsEntry : Obligations.PrefixRunsItsEntry := by
  intro op2 b2 s
  have hwf : (cbLookup op2).wellFormed = true := (cbLookup_encodes op2).1
  obtain ⟨t, ht⟩ := exec_wellFormed s hwf
  exact ⟨rfl, hwf, t, (exec_cbLookup op2 s).symm.trans ht, ht⟩

/-! ### The step by its decoded record -/

/-- Settles O34: of three bytes, the decoder leaves those that the row does not take. -/
theorem stepRunsDecoded : Obligations.StepRunsDecoded := by
  intro s i rest hrun hdec
  obtain ⟨hi, -, -, hrest⟩ := decode_ok hdec
  have hlen : 3 - rest.length = s.fetched.2 := by
    have hbounds : 1 ≤ s.fetched.2 ∧ s.fetched.2 ≤ 3 := decodeRow_length ..
    have hdrop : rest.length = 2 - (s.fetched.2 - 1) := by rw [hrest]; exact List.length_drop
    omega
  rw [step_running hrun, hlen]
  exact hi ▸ rfl

/-! ### The gates of hold and fault -/

theorem held_of_flag {s : State} (h : s.halted = true ∨ s.lowPower = true) : s.held = true := by
  rwa [State.held, Bool.or_eq_true]

theorem gate_held {σ : Type} {core : State} (hfault : core.fault = none) (hheld : core.held = true) (here : σ)
    (run : StepOutcome σ) : gate core here run = .held := by
  simp only [gate, hfault, hheld, if_true]

theorem gate_faulted {σ : Type} {core : State} {r : FaultStatus} (hfault : core.fault = some r) (here : σ)
    (run : StepOutcome σ) : gate core here run = .fault r here := by
  simp only [gate, hfault]

theorem gate_running {σ : Type} {core : State} (hrun : core.Running) (here : σ) (run : StepOutcome σ) :
    gate core here run = run := by
  simp [gate, State.held, hrun.1, hrun.2.1, hrun.2.2]

theorem step_held {s : State} (hfault : s.fault = none) (hheld : s.held = true) : step s = .next s := by
  simp only [step, hfault, hheld, if_true]

theorem step_faulted {s : State} {r : FaultStatus} (hfault : s.fault = some r) : step s = .fault (r.report s) := by
  simp only [step, hfault]

theorem executePort_held {s : State} (hfault : s.fault = none) (hheld : s.held = true) (i : Instr) :
    executePort i s = .next s := by
  simp only [executePort, hfault, hheld, if_true]

theorem executePort_faulted {s : State} {r : FaultStatus} (hfault : s.fault = some r) (i : Instr) :
    executePort i s = .fault (r.report s) := by
  simp only [executePort, hfault]

theorem executePort_running {s : State} (hrun : s.Running) (i : Instr) :
    executePort i s = if i.wellFormed then exec i s else raiseIllegalInstruction i s := by
  simp [executePort, State.held, hrun.1, hrun.2.1, hrun.2.2]

/-- A run from a faulted state has ended there, whatever the hold flags are (60_exceptions.md rule R259). -/
theorem runFor_faulted {s : State} {r : FaultStatus} (hfault : s.fault = some r) (n : Nat) :
    runFor n s = .faulted (r.report s) := by
  have hend : endsAt s = some (.faulted (r.report s)) := by simp only [endsAt, hfault]
  cases n <;> simp only [runFor, hend, Option.getD_some]

theorem drive_faulted {s : State} {r : FaultStatus} (hfault : s.fault = some r) {act : DriverAction}
    (hact : act ≠ .reset) : (drive act s).fault = some r := by
  cases act
  case reset => exact absurd rfl hact
  case step => rw [drive, step_faulted hfault, stateAfter, FaultStatus.after_report, hfault]
  case execute i => rw [drive, executePort_faulted hfault, stateAfter, FaultStatus.after_report, hfault]
  all_goals exact hfault

/-- Settles O35: the gate is before anything runs, on every bus, and it does not look at IME. -/
theorem holdChangesNothing : Obligations.HoldChangesNothing := by
  intro s hfault hflag
  have hheld := held_of_flag hflag
  refine ⟨gate_held hfault hheld .., fun i => gate_held hfault hheld ..,
    fun M bus m => ⟨gate_held hfault hheld .., fun i => gate_held hfault hheld ..⟩, step_held hfault hheld,
    executePort_held hfault hheld, ?_, fun v => step_held (s := s.setIme v) hfault hheld, rfl, ⟨hfault, rfl, rfl⟩,
    step_running ⟨hfault, rfl, rfl⟩⟩
  simp only [stepAccesses, hheld, Bool.or_true, if_true]

/-- Settles O36: the fault gate is the first thing every port and every run looks at. -/
theorem faultIsSticky : Obligations.FaultIsSticky := by
  intro s r hfault
  refine ⟨gate_faulted hfault .., fun i => gate_faulted hfault ..,
    fun M bus m => ⟨gate_faulted hfault .., fun i => gate_faulted hfault ..⟩, runFor_faulted hfault,
    step_faulted hfault, executePort_faulted hfault, r.after_report s, ?_, fun _ => drive_faulted hfault, rfl⟩
  simp only [stepAccesses, hfault, Option.isSome_some, Bool.true_or, if_true]

/-! ### The three-way outcome and the host's -/

theorem ofRun_eq_next {o : Host.Outcome State Fault Refusal} {t : State} :
    StepOutcome.ofRun o = .next t ↔ o = .next t := by
  cases o <;> simp [StepOutcome.ofRun]

theorem Fault.eq_report_iff {f : Fault} {r : FaultStatus} {t : State} :
    f = r.report t ↔ f.reason = r ∧ f.after = t := by
  cases f <;> cases r <;> simp [FaultStatus.report, Fault.reason, Fault.after, and_assoc]

theorem ofRun_eq_fault {o : Host.Outcome State Fault Refusal} {r : FaultStatus} {t : State} :
    StepOutcome.ofRun o = .fault r t ↔ o = .fault (r.report t) := by
  cases o <;> simp [StepOutcome.ofRun, Fault.eq_report_iff]

theorem stepOutcome_running {s : State} (hrun : s.Running) : stepOutcome s = .ofRun (step s) := by
  rw [stepOutcome, gate_running hrun, step_running hrun]

/-- Settles O37: off the eleven bytes the record is well-formed and completes, and at them it raises the byte. -/
theorem onlyTheSpecsFaults : Obligations.OnlyTheSpecsFaults := by
  intro s hrun
  have hcases := exec_cases s.fetched.1 s.afterFetch
  rw [← step_running hrun] at hcases
  rw [stepOutcome_running hrun]
  refine ⟨⟨?legal, step_legal hrun⟩, fun ρ => ?refused, ?held, fun t => ofRun_eq_next, fun r t => ofRun_eq_fault,
    fun i hwf => ?wellFormed, fun i hwf => ?illFormed⟩
  case legal =>
    rintro ⟨t, hnext⟩ hb
    rw [step_illegal hrun hb] at hnext
    cases hnext
  case refused => rcases hcases with ⟨t, h⟩ | ⟨r, h⟩ <;> rw [h] <;> exact ⟨nofun, nofun⟩
  case held => rcases hcases with ⟨t, h⟩ | ⟨r, h⟩ <;> rw [h] <;> nofun
  case wellFormed =>
    rw [executePort_running hrun, if_pos hwf]
    exact ⟨rfl, exec_wellFormed s hwf⟩
  case illFormed =>
    rw [executePort_running hrun, hwf]
    rfl

/-! ### Reset and the driver -/

/-- Settles O38: both resets are the reset values, over whatever memory there is. -/
theorem resetValues : Obligations.ResetValues := by
  intro s t ht
  obtain ⟨m, rfl⟩ : ∃ m, t = State.launch m := ht.elim (fun h => ⟨[], h⟩) (fun h => ⟨s.mem, h⟩)
  refine ⟨fun q => ?_, rfl, rfl, rfl, rfl, rfl, rfl, rfl⟩
  cases q
  case f => exact BitVec.zero_and
  all_goals rfl

theorem head?_fetchAccesses (s : State) : (fetchAccesses s).head? = some (.readByte s.pc) := by
  unfold fetchAccesses
  split <;> rfl

/-- Settles O39: the reset state runs, from PC zero, on the memory that was there. -/
theorem firstStepFetchesAtZero : Obligations.FirstStepFetchesAtZero := by
  intro s t
  have hrun : t.Running := ⟨rfl, rfl, rfl⟩
  have hafter : t.afterFetch = t.setPc (BitVec.ofNat 16 t.fetched.2) := congrArg t.setPc (BitVec.zero_add _)
  refine ⟨fun _ => rfl, rfl, ?_, ?_⟩
  · have haccesses : stepAccesses t = fetchAccesses t ++ dataAccesses t.fetched.1 t.afterFetch := rfl
    rw [haccesses, List.head?_append, head?_fetchAccesses]
    rfl
  · rw [step_running hrun, hafter]
    rfl

theorem stores1_writeByte (s : State) (x : Word) (v : Byte) : Stores1 s (s.writeByte x v) x v :=
  ⟨s.readByte_writeByte_self x v, fun _ hy => s.readByte_writeByte_other v hy⟩

/-- Settles O40: each driver action is one write. -/
theorem driverRights : Obligations.DriverRights := fun s x v _ => ⟨rfl, stores1_writeByte s x v, rfl, rfl, rfl⟩

/-! ### Self-modifying code -/

/-- Settles O57: the store's address is PC past the store, so the next fetch reads A's old value there and memory as
it was at the two addresses after it. -/
theorem storeSeenByNextFetch : Obligations.StoreSeenByNextFetch := by
  intro s hrun hfetched
  have hafter : s.afterFetch = s.setPc (s.pc + 3) := by rw [State.afterFetch, hfetched]; rfl
  let t : State := (s.setPc (s.pc + 3)).writeByte (s.pc + 3) s.a
  have hstep : step s = .next t := by rw [step_running hrun, hfetched, hafter]; rfl
  have hother {k : Word} (hk : k ≠ 0) : t.readByte (s.pc + 3 + k) = s.readByte (s.pc + 3 + k) :=
    State.readByte_writeByte_other _ _ fun h => hk (by simpa using h)
  have hnext : t.fetched = decodeRow s.a (s.readByte (s.pc + 4)) (s.readByte (s.pc + 5)) := by
    have h4 : s.pc + 4 = s.pc + 3 + 1 := by rw [BitVec.add_assoc]; rfl
    have h5 : s.pc + 5 = s.pc + 3 + 2 := by rw [BitVec.add_assoc]; rfl
    rw [h4, h5, ← hother (by decide), ← hother (by decide)]
    exact congrArg (decodeRow · _ _) (State.readByte_writeByte_self ..)
  refine ⟨t, hstep, rfl, ?_⟩
  rw [step_running (s := t) hrun, State.afterFetch, hnext]

/-! ### IME is read by nothing -/

/-- Two outcomes of one kind, whose states differ at most in IME. -/
def SameButIme : Host.Outcome State Fault Refusal → Host.Outcome State Fault Refusal → Prop
  | .next t, .next u => u.setIme t.ime = t
  | .fault r, .fault q => q.after.setIme r.after.ime = r.after
  | _, _ => False

theorem SameButIme.next {o p : Host.Outcome State Fault Refusal} (h : SameButIme o p) {t : State} (ho : o = .next t) :
    ∃ u, p = .next u ∧ u.setIme t.ime = t := by
  subst ho
  cases p
  case next u => exact ⟨u, rfl, h⟩
  all_goals cases h

theorem SameButIme.fault {o p : Host.Outcome State Fault Refusal} (h : SameButIme o p) {r : Fault}
    (ho : o = .fault r) : ∃ q, p = .fault q ∧ q.after.setIme r.after.ime = r.after := by
  subst ho
  cases p
  case fault q => exact ⟨q, rfl, h⟩
  all_goals cases h

/-- A conditional instruction: the condition does not see IME. -/
theorem sameButIme_ite {c v : Bool} {s t u : State} (h : u.setIme t.ime = t) :
    SameButIme (.next (if c then t else s)) (.next (if c then u else s.setIme v)) := by
  cases c
  case false => exact rfl
  case true => exact h

theorem execCbPrefix_setIme (op2 : Byte) (s : State) (v : Bool) :
    SameButIme (execCbPrefix op2 s) (execCbPrefix op2 (s.setIme v)) := by
  rw [execCbPrefix, execCbPrefix]
  generalize R8.ofCode (fieldZ op2) = r
  generalize (fieldX op2).toNat = x
  match x with
  | 1 => rfl
  | 0 | 2 | _ + 3 => cases r <;> rfl

theorem exec_setIme (i : Instr) (s : State) (v : Bool) : SameButIme (exec i s) (exec i (s.setIme v)) := by
  cases i
  case incR8 r | decR8 r | ldR8N8 r _ | rlcR8 r | rrcR8 r | rlR8 r | rrR8 r | slaR8 r | sraR8 r | swapR8 r | srlR8 r
      | resBR8 b r | setBR8 b r | ldR16N16 r _ | incR16 r | decR16 r | popR16Stk r | ldR16MemA r | ldAR16Mem r =>
    cases r <;> rfl
  case ldR8R8 dst src =>
    by_cases hboth : dst = .hlInd ∧ src = .hlInd
    · obtain ⟨rfl, rfl⟩ := hboth
      rfl
    · rw [exec_ldR8R8 hboth, exec_ldR8R8 hboth]
      cases dst <;> rfl
  case cbPrefix op2 => exact execCbPrefix_setIme op2 s v
  case jpCcA16 | jrCcE8 | callCcA16 | retCc => exact sameButIme_ite rfl
  all_goals exact rfl

theorem step_setIme (s : State) (v : Bool) : SameButIme (step s) (step (s.setIme v)) := by
  rcases step_cases s with ⟨r, hfault, hs⟩ | ⟨hfault, hheld, hs⟩ | ⟨hrun, hs⟩ <;> rw [hs]
  · rw [step_faulted (s := s.setIme v) hfault]
    cases r <;> rfl
  · rw [step_held (s := s.setIme v) hfault hheld]
    rfl
  · rw [step_running (s := s.setIme v) hrun]
    exact exec_setIme s.fetched.1 s.afterFetch v

/-- Settles O56: the gates and the fetch do not see IME, and no instruction does. -/
theorem imeIsReadByNothing : Obligations.ImeIsReadByNothing := fun s v =>
  ⟨fun _ => (step_setIme s v).next, fun _ => (step_setIme s v).fault⟩

/-! ### Memory is read only where the table says -/

/-- An instruction's accesses are at addresses that registers give. -/
theorem dataAccesses_setMem (i : Instr) (s : State) (m : Memory) :
    dataAccesses i { s with mem := m } = dataAccesses i s := by
  cases i <;> rfl

/-- Two memories that agree at the bytes an access reads serve it alike, and it changes neither. -/
theorem serveRead_congr {m m' : Memory} (view : State) (a : Access)
    (h : ∀ x ∈ a.observed, Memory.read m' x.toNat = Memory.read m x.toNat) :
    (serveRead referenceBus (view, m') a).1 = (serveRead referenceBus (view, m) a).1 := by
  cases a
  case readByte x => exact congrArg (view.writeByte x) (h x (.head _))
  case readWord x =>
    exact congrArg (view.writeWord x) (congrArg₂ mkWord (h (x + 1) (.tail _ (.head _))) (h x (.head _)))
  case writeByte | writeWord => rfl

theorem foldl_serveRead_congr {m m' : Memory} (accesses : List Access) (view : State)
    (h : ∀ x ∈ accesses.flatMap Access.observed, Memory.read m' x.toNat = Memory.read m x.toNat) :
    (accesses.foldl (serveRead referenceBus) (view, m')).1 =
      (accesses.foldl (serveRead referenceBus) (view, m)).1 := by
  induction accesses generalizing view with
  | nil => rfl
  | cons a accesses ih =>
    have hstep (n : Memory) : serveRead referenceBus (view, n) a = ((serveRead referenceBus (view, n) a).1, n) := by
      cases a <;> rfl
    rw [List.flatMap_cons] at h
    rw [List.foldl_cons, List.foldl_cons, hstep m', hstep m,
      serveRead_congr view a fun x hx => h x (List.mem_append_left _ hx)]
    exact ih _ fun x hx => h x (List.mem_append_right _ hx)

/-- The core over a memory of just the bytes the instruction's reads gave. -/
def readView (i : Instr) (s : State) : State :=
  ((dataAccesses i s).foldl (serveRead referenceBus) (s.bare, s.mem)).1

/-- The core that a completed instruction leaves. -/
def nextCore : Host.Outcome State Fault Refusal → Option State
  | .next t => some t.bare
  | .fault _ => none
  | .refused _ => none

theorem nextCore_eq_some {o : Host.Outcome State Fault Refusal} {core : State} :
    nextCore o = some core ↔ ∃ t, o = .next t ∧ t.bare = core := by
  cases o <;> simp [nextCore]

/-- The core that a completed instruction leaves on a bus. -/
def StepOutcome.core {M : Type} : StepOutcome (State × M) → Option State
  | .next p => some p.1
  | .fault _ _ => none
  | .held => none
  | .unmodelled _ => none

/-- On the state and on that view the instruction completes alike, with the same core. -/
theorem nextCore_readView (i : Instr) (s : State) : nextCore (exec i (readView i s)) = nextCore (exec i s) := by
  have hview : (runOn referenceBus i s s.mem).core = nextCore (exec i (readView i s)) := by
    unfold runOn readView
    dsimp only
    split <;> rename_i h <;> rw [h] <;> rfl
  have hstate : ((StepOutcome.ofRun (exec i s)).map State.apart).core = nextCore (exec i s) := by
    cases exec i s <;> rfl
  have href : runOn referenceBus i s s.mem = (StepOutcome.ofRun (exec i s)).map State.apart := onReference i s
  rw [← hview, href, hstate]

theorem readView_setMem {i : Instr} {s : State} {m : Memory}
    (h : ∀ x ∈ i.readsFrom s, Memory.read m x.toNat = s.readByte x) : readView i { s with mem := m } = readView i s := by
  rw [readView, dataAccesses_setMem]
  exact foldl_serveRead_congr (dataAccesses i s) s.bare h

theorem butMemory_of_bare {t u : State} (h : u.bare = t.bare) : ButMemory u t := by
  have hmem : { u.bare with mem := u.mem } = { t.bare with mem := u.mem } := by rw [h]
  exact hmem

theorem gate_map {σ τ : Type} (f : σ → τ) (core : State) (here : σ) (run : StepOutcome σ) :
    (gate core here run).map f = gate core (f here) (run.map f) := by
  unfold gate
  split
  · rfl
  · split <;> rfl

/-- Settles O55: an instruction sees memory through the view its reads give, and on the reference bus its accesses are
those of `exec`. -/
theorem readsOnlyWhereListed : Obligations.ReadsOnlyWhereListed := by
  refine ⟨fun i s t m hnext hagree => ?_, fun s => ⟨?_, fun i => ?_⟩⟩
  · have hcore : nextCore (exec i { s with mem := m }) = some t.bare := by
      rw [← nextCore_readView, readView_setMem hagree, nextCore_readView, hnext, nextCore]
    obtain ⟨u, hu, hbare⟩ := nextCore_eq_some.mp hcore
    exact ⟨u, hu, butMemory_of_bare hbare⟩
  · rw [stepOn, stepOutcome, gate_map, fetchOn_reference]
    exact congrArg (gate s s.apart) (onReference s.fetched.1 s.afterFetch)
  · rw [executeOn, executeOutcome, gate_map]
    refine congrArg (gate s s.apart) ?_
    split
    · exact onReference i s
    · rfl

end Sys2Proof.Machine
end

section
/-! PROOFS, registers, flags and memory: the flag register by its masks, the pairs as numbers, and what a write of a
byte or a word leaves at every address. -/

namespace Sys2Proof.Machine

/-! ### The flag register -/

/-- A write of one flag, read back flag by flag. -/
theorem State.flag_putFlag (s : State) (fl g : Flag) (v : Bool) :
    (s.putFlag fl v).flag g = if g = fl then v else s.flag g := by
  cases fl <;> cases g <;> simp [State.putFlag, State.flag]

/-- A write of one flag is a write of F alone, through its mask. -/
theorem State.putFlag_eq_setF (s : State) (fl : Flag) (v : Bool) : ∃ w, s.putFlag fl v = s.setF w := by
  cases fl <;> exact ⟨_, rfl⟩

theorem mask_eq_ofNat (w : Byte) : w &&& 0xF0#8 = BitVec.ofNat 8 (w.toNat / 16 * 16) := by
  revert w; decide +kernel

theorem flags_eq_masks (s : State) :
    s.flagZ = decide (s.f &&& 0x80#8 ≠ 0) ∧ s.flagN = decide (s.f &&& 0x40#8 ≠ 0) ∧
      s.flagH = decide (s.f &&& 0x20#8 ≠ 0) ∧ s.flagC = decide (s.f &&& 0x10#8 ≠ 0) := by
  simp only [State.flagZ, State.flagN, State.flagH, State.flagC]
  generalize s.f = f
  revert f; decide +kernel

/-- PUSH AF stores F's masked value at the new SP. -/
theorem readByte_sp_push16 (s : State) (v : Word) : (s.push16 v).readByte (s.push16 v).sp = lo8 v := by
  rw [push16_sp, readByte_push16, if_neg (succ_ne_self _).symm, if_pos rfl]

/-- Settles O46: every write of F goes through its mask, and each flag is its own bit. -/
theorem flagRegister : Obligations.FlagRegister := by
  intro s fl v w
  obtain ⟨hz, hn, hh, hc⟩ := flags_eq_masks s
  obtain ⟨u, hu⟩ := s.putFlag_eq_setF fl v
  refine ⟨hz, hn, hh, hc, ?own, fun g hg => ?other, ?low, ?frame, mask_low s.f, mask_eq_ofNat w, ⟨_, rfl, ?push⟩,
    ⟨_, rfl, mask_low _⟩⟩
  case own => rw [State.flag_putFlag, if_pos rfl]
  case other => rw [State.flag_putFlag, if_neg hg]
  case low => rw [hu]; exact mask_low u
  case frame => rw [hu]; rfl
  case push =>
    rw [readByte_sp_push16]
    show lo8 (mkWord s.a s.getF) &&& 0x0F#8 = 0#8
    rw [lo8_mkWord]
    exact mask_low s.f

/-! ### The pairs -/

theorem State.hl_eq_ofNat (s : State) : s.hl = BitVec.ofNat 16 (256 * s.h.toNat + s.l.toNat) := by
  rw [Nat.add_comm]
  exact mkWord_eq_ofNat s.h s.l

/-- Settles O47: a pair is `mkWord` of its halves, and its halves are written by `hi8` and `lo8`. -/
theorem pairsAreViews : Obligations.PairsAreViews := by
  intro s w
  refine ⟨mkWord_toNat .., mkWord_toNat .., mkWord_toNat .., mkWord_toNat .., ?_⟩
  rw [← hi8_eq_ofNat, ← lo8_eq_ofNat]
  exact ⟨rfl, rfl, rfl, rfl⟩

/-! ### Memory -/

theorem stores2_writeWord (s : State) (x w : Word) : Stores2 s (s.writeWord x w) x w := by
  refine ⟨?_, ?_, fun y hy hy' => ?_⟩
  · rw [State.readByte_writeWord, if_neg (succ_ne_self x).symm, if_pos rfl, lo8_eq_ofNat]
  · rw [State.readByte_writeWord, if_pos rfl, hi8_eq_ofNat]
  · rw [State.readByte_writeWord, if_neg hy', if_neg hy]

/-- Settles O48: the read of the memory written, and memory is the one field that a byte write changes. -/
theorem byteReadAfterWrite : Obligations.ByteReadAfterWrite := fun s x y v => ⟨s.readByte_writeByte x y v, rfl⟩

/-- Settles O49: an address and its successor differ, at the top of the address space too. -/
theorem mixedWidthAccess : Obligations.MixedWidthAccess := by
  intro s x w u v
  obtain ⟨hlow, hhigh, -⟩ := stores2_writeWord s x w
  refine ⟨hlow, hhigh, (s.readWord_writeWord x w).trans (mkWord_hi8_lo8 w), ?_, ?_⟩ <;>
    rw [State.readWord, ← mkWord_eq_ofNat]
  · rw [State.readByte_writeByte_self, State.readByte_writeByte_other _ _ (succ_ne_self x).symm,
      State.readByte_writeByte_self]
  · rw [State.readByte_writeByte_self, State.readByte_writeByte_other _ _ (succ_ne_self x),
      State.readByte_writeByte_self]

end Sys2Proof.Machine
end

section
/-! PROOFS, the stack and the loads and calls that store a word: the primitives with their exact next state, and what
a push leaves for a pop. -/

namespace Sys2Proof.Machine

/-! ### The primitives -/

theorem stores2_push16 (s : State) (v : Word) : Stores2 s (s.push16 v) (s.sp - 2) v :=
  stores2_writeWord (s.setSp (s.sp - 2)) (s.sp - 2) v

theorem drop16_push16_sp (s : State) (v : Word) : (s.push16 v).drop16.sp = s.sp :=
  BitVec.sub_add_cancel ..

/-- Settles O22: each of the six users is the primitive by its own definition. -/
theorem stackPrimitives : Obligations.StackPrimitives := fun s v =>
  ⟨rfl, stores2_push16 s v, s.readWord_eq_wordAt s.sp, rfl,
    fun _ _ _ _ => ⟨rfl, rfl, rfl, rfl, rfl, rfl, rfl, rfl⟩, fun _ _ => ⟨rfl, rfl, rfl, rfl⟩, rfl, rfl⟩

/-! ### PUSH and POP -/

/-- Settles O23: PUSH is one push, and POP writes the two bytes at SP to the halves of the pair. -/
theorem pushPopResults : Obligations.PushPopResults := by
  refine ⟨fun r => ⟨oneByte_of_lookup (by cases r <;> rfl), oneByte_of_lookup (by cases r <;> rfl)⟩,
    fun s => ⟨fun r => ⟨_, rfl, rfl, stores2_push16 s _⟩, ?_⟩⟩
  have hhi : hi8 s.top16 = s.readByte (s.sp + 1) := hi8_mkWord ..
  have hlo : lo8 s.top16 = s.readByte s.sp := lo8_mkWord ..
  rw [← hhi, ← hlo]
  refine ⟨rfl, rfl, rfl, ?_⟩
  rw [← mask_eq_ofNat]
  rfl

theorem mkWord_and (hi lo hi' lo' : Byte) : mkWord hi lo &&& mkWord hi' lo' = mkWord (hi &&& hi') (lo &&& lo') :=
  BitVec.and_append

theorem and_mask_eq_mkWord (w : Word) : w &&& 0xFFF0#16 = mkWord (hi8 w) (lo8 w &&& 0xF0#8) := by
  have hhi : hi8 w &&& 0xFF#8 = hi8 w := BitVec.and_allOnes
  calc w &&& 0xFFF0#16
    _ = mkWord (hi8 w) (lo8 w) &&& mkWord 0xFF#8 0xF0#8 := by rw [mkWord_hi8_lo8]; rfl
    _ = mkWord (hi8 w) (lo8 w &&& 0xF0#8) := by rw [mkWord_and, hhi]

/-- A pair read back after it was written: AF without the low nibble of F. -/
theorem readR16Stk_writeR16Stk (s : State) (q : R16Stk) (w : Word) :
    readR16Stk q (writeR16Stk q w s) = if q = .af then w &&& 0xFFF0#16 else w := by
  cases q
  case af =>
    have hf : lo8 w &&& 0xF0#8 &&& 0xF0#8 = lo8 w &&& 0xF0#8 := by rw [BitVec.and_assoc, BitVec.and_self]
    exact (congrArg (mkWord (hi8 w)) hf).trans (and_mask_eq_mkWord w).symm
  all_goals exact mkWord_hi8_lo8 w

/-- A return finds the PC that the call pushed. -/
theorem popPc_call (s : State) (t : Word) : (s.call t).popPc.sp = s.sp ∧ (s.call t).popPc.pc = s.pc :=
  ⟨drop16_push16_sp s s.pc, top16_push16 s s.pc⟩

/-- Settles O24: a pop finds what the push stored, and SP comes back. -/
theorem stackRoundTrips : Obligations.StackRoundTrips := by
  refine ⟨fun r q s t h => ?pair, fun a16 s t h => ?call, fun y s t h => ?rst⟩ <;> cases h
  case pair =>
    refine ⟨_, rfl, (writeR16Stk_sp ..).trans (drop16_push16_sp ..), ?_⟩
    rw [readR16Stk_writeR16Stk, top16_push16]
  case call => exact ⟨_, rfl, popPc_call s a16⟩
  case rst => exact ⟨_, rfl, popPc_call s (rstTarget y)⟩

/-! ### Calls and the other control flow -/

/-- Settles O20: a call is a push of PC and one write of PC. -/
theorem callResults : Obligations.CallResults := by
  refine ⟨threeBytes_of_lookup rfl, fun cc => threeBytes_of_lookup (by cases cc <;> rfl), fun cc a16 s => ?_⟩
  obtain ⟨call, taken, notTaken⟩ := exec_taken_and_notTaken (t := s.call a16) rfl (exec_callCcA16 cc a16 s)
  have called : ButMemory (s.call a16) { s with sp := s.sp - 2, pc := a16 } ∧ Stores2 s (s.call a16) (s.sp - 2) s.pc :=
    ⟨rfl, stores2_push16 s s.pc⟩
  exact ⟨⟨_, call, called⟩, fun h => ⟨_, taken h, called⟩, notTaken⟩

/-- Settles O19: JP HL is one write of PC, RST a call of its target, RETI a return and one write of IME. -/
theorem jpHlRstAndRetiResults : Obligations.JpHlRstAndRetiResults := by
  refine ⟨oneByte_of_lookup rfl, fun y => oneByte_of_lookup ?rstRow, oneByte_of_lookup rfl,
    fun y s => ⟨?jpHl, ⟨s.call (rstTarget y), rfl, ?rst, stores2_push16 s s.pc⟩, ?reti⟩⟩
  case rstRow =>
    have hrow : opAt 0xC7 y.toNat 0 = 0b11#2 ++ y ++ 0b111#3 := by revert y; decide
    rw [hrow, lookup_rst]
  case jpHl => rw [← s.hl_eq_ofNat]; rfl
  case rst => rw [← rstTarget_eq]; rfl
  case reti => rw [← s.readWord_eq_wordAt]; rfl

/-- Settles O16: the code of a condition is a field of the opcode, and neither the fetch nor its accesses see F. -/
theorem conditionTable : Obligations.ConditionTable := by
  refine ⟨fun v => ?_, fun s => ⟨rfl, rfl, rfl, rfl, fun v => ⟨rfl, rfl⟩, fun cc a16 e8 =>
    ⟨exec_jpCcA16 cc a16 s, exec_callCcA16 cc a16 s, exec_jrCcE8 cc e8 s, exec_retCc cc s⟩⟩⟩
  obtain ⟨cc, rfl⟩ : ∃ cc : Cond, cc.code = v := ⟨_, Cond.code_ofCode v⟩
  rw [Cond.ofCode_code]
  exact ⟨threeBytes_of_lookup (by cases cc <;> rfl), threeBytes_of_lookup (by cases cc <;> rfl),
    oneByte_of_lookup (by cases cc <;> rfl), twoBytes_of_lookup (by cases cc <;> rfl)⟩

end Sys2Proof.Machine
end

section
/-! PROOFS, the loads and the instructions of one flag: the operand table by index, and the address of each access in
numbers. -/

namespace Sys2Proof.Machine

/-! ### The `r8` table -/

theorem exists_code (k : BitVec 3) : ∃ r : R8, r.code = k := ⟨.ofCode k, R8.code_ofCode k⟩

/-- Settles O25: each entry is read at the operand of its index, and block 1 has the one hole. -/
theorem r8OperandTable : Obligations.R8OperandTable := by
  refine ⟨fun i k => ?encodings, fun s v => ?operands⟩
  case encodings =>
    obtain ⟨dst, rfl⟩ := exists_code i
    obtain ⟨r, rfl⟩ := exists_code k
    simp only [R8.ofCode_code]
    refine ⟨fun hne => oneByte_ldR8R8 fun ⟨hd, hs⟩ => hne ⟨hd ▸ rfl, hs ▸ rfl⟩,
      twoBytes_of_lookup (by cases dst <;> rfl), oneByte_of_lookup (by cases dst <;> rfl),
      oneByte_of_lookup (by cases dst <;> rfl), oneByte_of_lookup ?_, oneByte_of_lookup ?_, oneByte_of_lookup ?_,
      oneByte_of_lookup ?_, oneByte_of_lookup ?_, oneByte_of_lookup ?_, oneByte_of_lookup ?_, oneByte_of_lookup ?_,
      cbBytes_of_cbLookup ?_, cbBytes_of_cbLookup ?_, cbBytes_of_cbLookup ?_, cbBytes_of_cbLookup ?_,
      cbBytes_of_cbLookup ?_, cbBytes_of_cbLookup ?_, cbBytes_of_cbLookup ?_, cbBytes_of_cbLookup ?_,
      cbBytes_bitBR8 dst.code r, cbBytes_resBR8 dst.code r, cbBytes_setBR8 dst.code r⟩ <;> cases r <;> rfl
  case operands =>
    exact ⟨rfl, rfl, rfl, rfl, rfl, rfl, rfl, rfl, rfl, rfl, rfl, rfl, rfl, rfl,
      ⟨rfl, stores1_writeByte s s.hl v⟩, rfl⟩

/-! ### Memory loads -/

theorem add_one_eq_ofNat16 (w : Word) : w + 1 = BitVec.ofNat 16 (w.toNat + 1) := by
  rw [BitVec.ofNat_add, BitVec.ofNat_toNat, BitVec.setWidth_eq]
  rfl

theorem sub_one_eq_ofNat16 (w : Word) : w - 1 = BitVec.ofNat 16 (w.toNat + 65535) := by
  rw [BitVec.ofNat_add, BitVec.ofNat_toNat, BitVec.setWidth_eq, BitVec.sub_eq_add_neg]
  rfl

/-- Settles O28: the access at the address of the old registers, then HL by one in the auto-index forms. -/
theorem indirectLoadResults : Obligations.IndirectLoadResults := by
  refine ⟨fun m => ⟨oneByte_of_lookup (by cases m <;> rfl), oneByte_of_lookup (by cases m <;> rfl)⟩, fun s => ?_⟩
  have hinc (u : State) : u.setHl (s.hl + 1) =
      { u with h := .ofNat 8 ((s.hl.toNat + 1) / 256), l := .ofNat 8 (s.hl.toNat + 1) } := by
    rw [add_one_eq_ofNat16, State.setHl_ofNat]
  have hdec (u : State) : u.setHl (s.hl - 1) =
      { u with h := .ofNat 8 ((s.hl.toNat + 65535) / 256), l := .ofNat 8 (s.hl.toNat + 65535) } := by
    rw [sub_one_eq_ofNat16, State.setHl_ofNat]
  exact ⟨⟨_, rfl, rfl, stores1_writeByte ..⟩, ⟨_, rfl, rfl, stores1_writeByte ..⟩,
    ⟨_, rfl, hinc (s.writeByte s.hl s.a), stores1_writeByte s s.hl s.a⟩,
    ⟨_, rfl, hdec (s.writeByte s.hl s.a), stores1_writeByte s s.hl s.a⟩,
    rfl, rfl, congrArg _ (hinc (s.setA (s.readByte s.hl))), congrArg _ (hdec (s.setA (s.readByte s.hl)))⟩

/-- Settles O29: each is one write. -/
theorem absoluteLoadResults : Obligations.AbsoluteLoadResults := by
  refine ⟨threeBytes_of_lookup rfl, threeBytes_of_lookup rfl, threeBytes_of_lookup rfl, oneByte_of_lookup rfl,
    fun a16 s => ⟨⟨_, rfl, rfl, stores2_writeWord s a16 s.sp⟩, ⟨_, rfl, rfl, stores1_writeByte s a16 s.a⟩, rfl, ?_⟩⟩
  rw [← s.hl_eq_ofNat]
  rfl

/-- Settles O30: each is one access at the I/O page. -/
theorem ioPageLoadResults : Obligations.IoPageLoadResults := by
  refine ⟨twoBytes_of_lookup rfl, twoBytes_of_lookup rfl, oneByte_of_lookup rfl, oneByte_of_lookup rfl,
    fun a8 s => ?_⟩
  simp only [← ioAddr_eq]
  exact ⟨⟨_, rfl, rfl, stores1_writeByte s (ioAddr a8) s.a⟩, rfl, ⟨_, rfl, rfl, stores1_writeByte s (ioAddr s.c) s.a⟩,
    rfl⟩

/-- Settles O31: each is one write of its flag. -/
theorem miscResults : Obligations.MiscResults :=
  ⟨oneByte_of_lookup rfl, oneByte_of_lookup rfl, oneByte_of_lookup rfl, oneByte_of_lookup rfl, oneByte_of_lookup rfl,
    fun _ => ⟨rfl, rfl, rfl, rfl, rfl⟩⟩

end Sys2Proof.Machine
end

section
/-! PROOFS, the rest of the arithmetic: DEC, decimal adjust, the 16-bit steps by one and the signed offset, each
result in numbers. -/

namespace Sys2Proof.Machine

/-! ### Steps by one and the signed offset -/

theorem sub_one_eq_ofNat (v : Byte) : v - 1 = BitVec.ofNat 8 (v.toNat + 255) := by
  rw [BitVec.ofNat_add, BitVec.ofNat_toNat, BitVec.setWidth_eq, BitVec.sub_eq_add_neg]
  rfl

theorem sub_one_beq_zero (v : Byte) : (v - 1 == 0) = decide (v.toNat = 1) := by
  have hv := v.isLt
  rw [beq_zero_eq_decide, sub_one_eq_ofNat, BitVec.toNat_ofNat]
  exact decide_eq_decide.mpr (by omega)

/-- Settles O5: DEC r8 writes the operand and then the flags, as INC r8 does. -/
theorem decR8Result : Obligations.DecR8Result := by
  intro r s
  refine ⟨oneByte_of_lookup (by cases r <;> rfl), _, rfl, ?result, ?flags, frameR8_setFlags_writeR8 ..⟩
  case result => rw [readR8_setFlags, readR8_writeR8, sub_one_eq_ofNat]
  case flags => rw [State.getF_setFlags, packFlags_eq_flagByte, sub_one_beq_zero]; rfl

/-- Settles O10: the pair is written from an unbounded result, which SP keeps whole. -/
theorem incDecR16Results : Obligations.IncDecR16Results := by
  intro s
  refine ⟨fun r => ⟨oneByte_of_lookup (by cases r <;> rfl), oneByte_of_lookup (by cases r <;> rfl)⟩, ?_⟩
  simp only [← hi8_ofNat]
  simp only [← lo8_ofNat, ← add_one_eq_ofNat16, ← sub_one_eq_ofNat16]
  exact ⟨⟨rfl, rfl⟩, ⟨rfl, rfl⟩, ⟨rfl, rfl⟩, rfl, rfl⟩

theorem spPlus_eq_ofNat (sp : Word) (e8 : Byte) :
    spPlus sp e8 = BitVec.ofNat 16 (sp.toNat + if e8.toNat < 128 then e8.toNat else 65536 + e8.toNat - 256) := by
  rw [spPlus, sext16_eq, BitVec.ofNat_add, BitVec.ofNat_toNat, BitVec.setWidth_eq]

theorem State.setSpOffsetFlags_eq (s : State) (sp : Word) (e8 : Byte) :
    s.setSpOffsetFlags sp e8 =
      { s with f := flagByte false false (decide (0xF < sp.toNat % 16 + e8.toNat % 16))
                      (decide (0xFF < sp.toNat % 256 + e8.toNat)) } := by
  have hnibble : lowNibble (lo8 sp) = sp.toNat % 16 := by
    rw [lowNibble, lo8_toNat]
    omega
  rw [State.setSpOffsetFlags, State.setFlags_eq_flagByte, hnibble, lo8_toNat]
  rfl

/-- Settles O11: both are the signed sum, in SP or in HL, with the flags of the low byte's unsigned addition. -/
theorem spPlusOffsetResults : Obligations.SpPlusOffsetResults := by
  refine ⟨twoBytes_of_lookup rfl, twoBytes_of_lookup rfl, fun e8 s => ?_⟩
  dsimp only
  rw [← hi8_ofNat, ← lo8_ofNat, ← spPlus_eq_ofNat]
  exact ⟨congrArg _ (State.setSpOffsetFlags_eq _ s.sp e8), congrArg _ (State.setSpOffsetFlags_eq _ s.sp e8)⟩

/-! ### Decimal adjust -/

/-- The correction of the low digit, in numbers (40_alu8.md rule R141). -/
def daaLow (acc : Byte) (n h : Bool) : Nat := if h = true ∨ (n = false ∧ 9 < acc.toNat % 16) then 6 else 0

/-- The correction of the high digit, in numbers. -/
def daaHigh (acc : Byte) (n c : Bool) : Nat := if c = true ∨ (n = false ∧ 0x99 < acc.toNat) then 0x60 else 0

/-- The two corrections share no bit, so joined they are their sum. -/
theorem adjust_toNat (low high : Bool) :
    ((if low then 0x06#8 else 0x00#8) ||| (if high then 0x60#8 else 0x00#8)).toNat =
      (if high then 0x60 else 0) + (if low then 6 else 0) := by
  revert low high; decide

theorem daa_add (acc : Byte) (h c : Bool) :
    daa acc false h c =
      (BitVec.ofNat 8 (acc.toNat + (daaHigh acc false c + daaLow acc false h)), decide (daaHigh acc false c ≠ 0)) := by
  have hadj := adjust_toNat (h || decide (lowNibble acc > 0x9)) (c || decide (acc.toNat > 0x99))
  have hlow : daaLow acc false h = if (h || decide (lowNibble acc > 0x9)) = true then 6 else 0 := by
    simp [daaLow, lowNibble]
  have hhigh : daaHigh acc false c = if (c || decide (acc.toNat > 0x99)) = true then 0x60 else 0 := by
    simp [daaHigh]
  rw [hlow, hhigh, ← hadj, ← BitVec.add_def]
  refine Prod.ext rfl ?_
  show (c || decide (acc.toNat > 0x99)) = _
  cases c || decide (acc.toNat > 0x99) <;> rfl

theorem daa_sub (acc : Byte) (h c : Bool) :
    daa acc true h c =
      (BitVec.ofNat 8 (acc.toNat + 256 - (daaHigh acc true c + daaLow acc true h)), decide (daaHigh acc true c ≠ 0)) := by
  have hadj := adjust_toNat h c
  have hlow : daaLow acc true h = if h = true then 6 else 0 := by simp [daaLow]
  have hhigh : daaHigh acc true c = if c = true then 0x60 else 0 := by simp [daaHigh]
  have hlt := BitVec.isLt ((if h then 0x06#8 else 0x00#8) ||| (if c then 0x60#8 else 0x00#8))
  rw [hlow, hhigh, ← hadj, Nat.add_comm, Nat.sub_add_comm (Nat.le_of_lt hlt), ← BitVec.sub_def]
  cases c <;> rfl

/-- DAA with its flags, the adjusted A and the new carry taken from the algorithm. -/
theorem exec_daa (s : State) :
    exec .daa s = .next (withAF s (daa s.a s.flagN s.flagH s.flagC).1
      (decide ((daa s.a s.flagN s.flagH s.flagC).1.toNat = 0)) s.flagN false (daa s.a s.flagN s.flagH s.flagC).2) := by
  rw [← beq_zero_eq_decide, ← State.setFlags_setA]
  rfl

/-- Settles O6: the algorithm's two branches, after an addition and after a subtraction. -/
theorem daaResult : Obligations.DaaResult := by
  refine ⟨oneByte_of_lookup rfl, fun s => ?_⟩
  rw [exec_daa]
  cases s.flagN
  case false => rw [daa_add]; rfl
  case true => rw [daa_sub]; rfl

/-! ### Decimal addition and subtraction -/

/-- The digit sum `v` of two low digits needs the low correction exactly when it has a decimal carry. -/
theorem low_corrected_iff (u : Nat) {v : Nat} (hv : v ≤ 18) :
    (0xF < v ∨ 9 < (16 * u + v) % 256 % 16) ↔ 10 ≤ v := by
  have hnibble : (16 * u + v) % 256 % 16 = v % 16 := by omega
  omega

theorem high_corrected_iff {u v : Nat} (hu : u ≤ 18) (hv : v ≤ 18) :
    (0xFF < 16 * u + v ∨ 0x99 < (16 * u + v) % 256) ↔ 100 ≤ 10 * u + v := by
  omega

/-- The corrected binary sum of two decimal bytes is the decimal sum in decimal digits: `u` and `v` are the sums of the
high and of the low digits. -/
theorem corrected_sum {u v : Nat} (hu : u ≤ 18) (hv : v ≤ 18) :
    (16 * u + v + ((if 100 ≤ 10 * u + v then 0x60 else 0) + (if 10 ≤ v then 6 else 0))) % 256 =
      16 * ((10 * u + v) % 100 / 10) + (10 * u + v) % 100 % 10 := by
  have hlow : (10 * u + v) % 100 % 10 = if 10 ≤ v then v - 10 else v := by split <;> omega
  have hhigh : (10 * u + v) % 100 / 10 = (u + if 10 ≤ v then 1 else 0) - if 100 ≤ 10 * u + v then 10 else 0 := by
    split <;> split <;> omega
  rw [hlow, hhigh]
  clear hlow hhigh
  split <;> split <;> omega

/-- The corrected binary difference of two decimal bytes, by their digits. -/
theorem corrected_difference {x1 x0 y1 y0 : Nat} (hx1 : x1 < 10) (hx0 : x0 < 10) (hy1 : y1 < 10) (hy0 : y0 < 10) :
    (difference (16 * x1 + x0) (16 * y1 + y0) 0 + 256 -
        ((if 16 * x1 + x0 < 16 * y1 + y0 then 0x60 else 0) + (if x0 < y0 then 6 else 0))) % 256 =
      16 * ((10 * x1 + x0 + 100 - (10 * y1 + y0)) % 100 / 10) + (10 * x1 + x0 + 100 - (10 * y1 + y0)) % 100 % 10 := by
  have hlow : (10 * x1 + x0 + 100 - (10 * y1 + y0)) % 100 % 10 = if x0 < y0 then x0 + 10 - y0 else x0 - y0 := by
    split <;> omega
  have hhigh : (10 * x1 + x0 + 100 - (10 * y1 + y0)) % 100 / 10 = (x1 + 10 - y1 - if x0 < y0 then 1 else 0) % 10 := by
    split <;> omega
  rw [hlow, hhigh, difference]
  split <;> split <;> omega

/-- A number below 100 as the byte of its two decimal digits. -/
def bcd (n : Nat) : Byte := BitVec.ofNat 8 (16 * (n / 10) + n % 10)

theorem bcd_digits_toNat {n1 n0 : Nat} (h1 : n1 < 10) (h0 : n0 < 10) : (bcd (10 * n1 + n0)).toNat = 16 * n1 + n0 := by
  rw [bcd, BitVec.toNat_ofNat]
  omega

theorem flags_withAF (s : State) (r : Byte) (z n h c : Bool) :
    (withAF s r z n h c).flagN = n ∧ (withAF s r z n h c).flagH = h ∧ (withAF s r z n h c).flagC = c := by
  rw [← State.setFlags_setA]
  exact ⟨State.flagN_setFlags .., State.flagH_setFlags .., State.flagC_setFlags ..⟩

/-- DAA after an instruction that left its result and flags in A and F: A and C are the algorithm's. -/
theorem exec_daa_withAF (s : State) (r : Byte) (z n h c : Bool) :
    ∃ u, exec .daa (withAF s r z n h c) = .next u ∧ u.a = (daa r n h c).1 ∧ u.flagC = (daa r n h c).2 := by
  obtain ⟨hn, hh, hc⟩ := flags_withAF s r z n h c
  refine ⟨_, exec_daa _, ?_, ?_⟩
  · rw [hn, hh, hc]; rfl
  · rw [(flags_withAF ..).2.2, hn, hh, hc]; rfl

/-- ADD of two decimal bytes and then DAA, as the algorithm's own answer. -/
theorem daa_decimal_sum {x1 x0 y1 y0 : Nat} (hx1 : x1 < 10) (hx0 : x0 < 10) (hy1 : y1 < 10) (hy0 : y0 < 10) {a b : Byte}
    (ha : a.toNat = 16 * x1 + x0) (hb : b.toNat = 16 * y1 + y0) :
    daa (BitVec.ofNat 8 (a.toNat + b.toNat)) false (decide (0xF < a.toNat % 16 + b.toNat % 16))
        (decide (0xFF < a.toNat + b.toNat)) =
      (bcd ((10 * x1 + x0 + (10 * y1 + y0)) % 100), decide (100 ≤ 10 * x1 + x0 + (10 * y1 + y0))) := by
  have hsum : a.toNat + b.toNat = 16 * (x1 + y1) + (x0 + y0) := by omega
  have hdigits : a.toNat % 16 + b.toNat % 16 = x0 + y0 := by omega
  have hdecimal : 10 * x1 + x0 + (10 * y1 + y0) = 10 * (x1 + y1) + (x0 + y0) := by omega
  have hu : x1 + y1 ≤ 18 := by omega
  have hv : x0 + y0 ≤ 18 := by omega
  rw [daa_add, hsum, hdigits, hdecimal]
  simp only [daaLow, daaHigh, decide_eq_true_eq, true_and, BitVec.toNat_ofNat, Nat.reducePow,
    low_corrected_iff _ hv, high_corrected_iff hu hv]
  refine Prod.ext (BitVec.eq_of_toNat_eq ?_) (decide_eq_decide.mpr ?_)
  · rw [bcd, ← corrected_sum hu hv, BitVec.toNat_ofNat, BitVec.toNat_ofNat]
    omega
  · split <;> simp [*]

/-- SUB of two decimal bytes and then DAA, as the algorithm's own answer. -/
theorem daa_decimal_difference {x1 x0 y1 y0 : Nat} (hx1 : x1 < 10) (hx0 : x0 < 10) (hy1 : y1 < 10) (hy0 : y0 < 10)
    {a b : Byte} (ha : a.toNat = 16 * x1 + x0) (hb : b.toNat = 16 * y1 + y0) :
    daa (BitVec.ofNat 8 (difference a.toNat b.toNat 0)) true (decide (a.toNat % 16 < b.toNat % 16))
        (decide (a.toNat < b.toNat)) =
      (bcd ((10 * x1 + x0 + 100 - (10 * y1 + y0)) % 100), decide (10 * x1 + x0 < 10 * y1 + y0)) := by
  have hdigits : (16 * x1 + x0) % 16 < (16 * y1 + y0) % 16 ↔ x0 < y0 := by omega
  have hdecimal : 10 * x1 + x0 < 10 * y1 + y0 ↔ 16 * x1 + x0 < 16 * y1 + y0 := by omega
  simp only [ha, hb, hdigits, hdecimal]
  rw [daa_sub]
  simp only [daaLow, daaHigh, decide_eq_true_eq, Bool.true_eq_false, false_and, or_false, BitVec.toNat_ofNat]
  refine Prod.ext (BitVec.eq_of_toNat_eq ?_) (decide_eq_decide.mpr ?_)
  · have hlt : difference (16 * x1 + x0) (16 * y1 + y0) 0 < 256 := Nat.mod_lt _ (by decide)
    rw [Nat.mod_eq_of_lt hlt, bcd, ← corrected_difference hx1 hx0 hy1 hy0, BitVec.toNat_ofNat, BitVec.toNat_ofNat,
      Nat.mod_mod]
  · split <;> simp [*]

/-- Settles O7: ADD and SUB leave the binary result and the carries of its two digits, which DAA corrects. -/
theorem daaKeepsDecimal : Obligations.DaaKeepsDecimal := by
  intro s x1 x0 y1 y0 _ x y ha
  have hx : s.a.toNat = 16 * x1.val + x0.val := (congrArg BitVec.toNat ha).trans (bcd_digits_toNat x1.isLt x0.isLt)
  have hy : (bcd y).toNat = 16 * y1.val + y0.val := bcd_digits_toNat y1.isLt y0.isLt
  have hsum := daa_decimal_sum x1.isLt x0.isLt y1.isLt y0.isLt hx hy
  have hdifference := daa_decimal_difference x1.isLt x0.isLt y1.isLt y0.isLt hx hy
  obtain ⟨-, -, -, hadd⟩ := addAndAdcResults s
  obtain ⟨-, -, -, -, hsub⟩ := subSbcAndCpResults s
  obtain ⟨t, ht, hta, htc⟩ : ∃ u, exec .daa (afterAdd s (bcd y) 0) = .next u ∧ _ := exec_daa_withAF ..
  obtain ⟨u, hu, hua, huc⟩ : ∃ u, exec .daa (afterSub s (bcd y) 0) = .next u ∧ _ := exec_daa_withAF ..
  exact ⟨⟨_, t, (hadd (bcd y)).1, ht, hta.trans (congrArg Prod.fst hsum), htc.trans (congrArg Prod.snd hsum)⟩,
    ⟨_, u, (hsub (bcd y)).1, hu, hua.trans (congrArg Prod.fst hdifference), huc.trans (congrArg Prod.snd hdifference)⟩⟩

end Sys2Proof.Machine
end

section
/-! PROOFS, the rotates and shifts: each row of the operation table in numbers, by the selector, and the two families
that use it. -/

namespace Sys2Proof.Machine

/-! ### The operation table in numbers -/

theorem toNat_append_eq {n m : Nat} (x : BitVec n) (y : BitVec m) : (x ++ y).toNat = x.toNat * 2 ^ m + y.toNat := by
  rw [BitVec.toNat_append, ← Nat.shiftLeft_add_eq_or_of_lt y.isLt, Nat.shiftLeft_eq]

theorem getLsbD_seven (v : Byte) : v.getLsbD 7 = decide (128 ≤ v.toNat) := by
  revert v; decide +kernel

theorem getLsbD_zero (v : Byte) : v.getLsbD 0 = decide (v.toNat % 2 = 1) := by
  revert v; decide +kernel

/-- The operation of a selector, in numbers (42_rotate_bit.md rule R160). -/
theorem rotResult_toNat (y : BitVec 3) (v : Byte) (cin : Bool) :
    (rotResult (.ofSelector y) v cin).toNat = (rotTable y.toNat v.toNat cin.toNat).1 := by
  have hv := v.isLt
  obtain ⟨selector, rfl⟩ := exists_code y
  cases selector <;> refine (toNat_append_eq _ _).trans ?_ <;>
    simp only [BitVec.extractLsb'_toNat, Nat.shiftRight_eq_div_pow, BitVec.toNat_ofBool]
  case b => show _ = 2 * v.toNat % 256 + v.toNat / 128; omega
  case c => show _ = v.toNat / 2 + 128 * (v.toNat % 2); omega
  case d => show _ = 2 * v.toNat % 256 + cin.toNat; omega
  case e => show _ = v.toNat / 2 + 128 * cin.toNat; omega
  case h => show _ + 0 = 2 * v.toNat % 256; omega
  case l => show _ = v.toNat / 2 + if 128 ≤ v.toNat then 128 else 0; split <;> omega
  case hlInd => show _ = 16 * (v.toNat % 16) + v.toNat / 16; omega
  case a => show 0 * 2 ^ 7 + _ = v.toNat / 2; omega

theorem rotCarry_eq (y : BitVec 3) (v : Byte) (cin : Nat) :
    rotCarry (.ofSelector y) v = (rotTable y.toNat v.toNat cin).2 := by
  obtain ⟨selector, rfl⟩ := exists_code y
  cases selector
  case b | d | h => exact getLsbD_seven v
  case c | e | l | a => exact getLsbD_zero v
  case hlInd => rfl

theorem rotResult_eq_ofNat (y : BitVec 3) (v : Byte) (cin : Bool) :
    rotResult (.ofSelector y) v cin = BitVec.ofNat 8 (rotTable y.toNat v.toNat cin.toNat).1 := by
  rw [← rotResult_toNat, BitVec.ofNat_toNat, BitVec.setWidth_eq]

/-! ### The obligations -/

theorem rotA_eq (y : BitVec 3) (s : State) :
    rotA (.ofSelector y) s = withAF s (BitVec.ofNat 8 (rotTable y.toNat s.a.toNat (carryIn s)).1) false false false
      (rotTable y.toNat s.a.toNat (carryIn s)).2 := by
  rw [rotA, State.setFlags_setA, rotResult_eq_ofNat, rotCarry_eq y s.a (carryIn s), carryIn_eq_toNat]

/-- Settles O12: the four are the first four selectors on A. -/
theorem accumulatorRotateResults : Obligations.AccumulatorRotateResults :=
  ⟨oneByte_of_lookup rfl, oneByte_of_lookup rfl, oneByte_of_lookup rfl, oneByte_of_lookup rfl, fun s =>
    ⟨congrArg _ (rotA_eq 0 s), congrArg _ (rotA_eq 1 s), congrArg _ (rotA_eq 2 s), congrArg _ (rotA_eq 3 s)⟩⟩

/-- A prefixed rotate, shift or SWAP by its selector: the encoding, the result, the flags and the frame. -/
theorem rotR8_result (y : BitVec 3) (r : R8) (s : State) {i : Instr} (hi : exec i s = .next (rotR8 (.ofSelector y) r s))
    (hentry : cbLookup (0b00#2 ++ y ++ r.code) = i) :
    CbBytes (opAt 0 y.toNat r.code.toNat) i ∧
      ∃ t, exec i s = .next t ∧
        readR8 r t = BitVec.ofNat 8 (rotTable y.toNat (readR8 r s).toNat (carryIn s)).1 ∧
        t.getF = flagByte (decide ((rotTable y.toNat (readR8 r s).toNat (carryIn s)).1 = 0)) false false
          (rotTable y.toNat (readR8 r s).toNat (carryIn s)).2 ∧
        FrameR8 r s t := by
  refine ⟨cbBytes_of_cbLookup ((congrArg cbLookup (opAt_eq_append 0b00#2 y r.code)).trans hentry), _, hi, ?result,
    ?flags, frameR8_setFlags_writeR8 ..⟩
  case result => rw [rotR8, readR8_setFlags, readR8_writeR8, rotResult_eq_ofNat, carryIn_eq_toNat]
  case flags =>
    rw [rotR8, State.getF_setFlags, packFlags_eq_flagByte, beq_zero_eq_decide, rotResult_toNat,
      rotCarry_eq y _ (carryIn s), carryIn_eq_toNat]

/-- Settles O13: the eight selectors in turn. -/
theorem rotateShiftSwapResults : Obligations.RotateShiftSwapResults := by
  intro r s ok
  exact ⟨rotR8_result 0 r s rfl (by cases r <;> rfl), rotR8_result 1 r s rfl (by cases r <;> rfl),
    rotR8_result 2 r s rfl (by cases r <;> rfl), rotR8_result 3 r s rfl (by cases r <;> rfl),
    rotR8_result 4 r s rfl (by cases r <;> rfl), rotR8_result 5 r s rfl (by cases r <;> rfl),
    rotR8_result 6 r s rfl (by cases r <;> rfl), rotR8_result 7 r s rfl (by cases r <;> rfl)⟩

end Sys2Proof.Machine
end
